-- ==== Sys2Proof/Word.lean ====
section
/-! DEFINITION. The word types of the block and the names of its two ports (30_encoding.md R60, R61, R65, R66). -/

namespace Sys2Proof

/-- A wire byte, a buffer element, a command operand (00_scope.md R9). -/
abbrev Byte := BitVec 8

/-- A command word, on either port (30_encoding.md R61). -/
abbrev CommandWord := BitVec 16

/-- An event response word `evr` (30_encoding.md R65). -/
abbrev EventWord := BitVec 32

/-- A read response word `rdr` (30_encoding.md R66). -/
abbrev ReadWord := BitVec 16

/-- An 11-bit channel value (00_scope.md R8 `CH_BITS`, R17 Channel). -/
abbrev Channel := BitVec 11

/-- The block's two ports (30_encoding.md R60). -/
inductive Port where
  /-- The event port: INIT, BYTE, TICK. -/
  | event
  /-- The read port: READ. -/
  | read
  deriving DecidableEq, Repr

end Sys2Proof
end

