-- ==== Sys2Proof/Config.lean ====
section
/-! DEFINITION. The build-time parameters and fixed values of 00_scope.md R8, and the values the spec leaves open. -/

namespace Sys2Proof

/-- The build-time parameters of 00_scope.md R8. `PLATFORM_MAP` (20_memory.md R47) and `OP_LATENCY_MAX`
(70_reset_and_hazards.md R146) are not here: no rule reads them. -/
structure Params where
  /-- `BUF_CAP`, bytes in the frame buffer. -/
  bufCap : Nat
  /-- `RESYNC_LIMIT`, ticks. -/
  resyncLimit : Nat
  /-- `FAILSAFE_LIMIT`, ticks. -/
  failsafeLimit : Nat
  /-- `CNT_W`, bits of each elapsed-tick counter. -/
  cntW : Nat
  /-- `CRC_POLY`, the generator polynomial, its x^8 term implied. -/
  crcPoly : Byte
  deriving DecidableEq, Repr

/-- The defaults "this hardware takes" (00_scope.md R8). -/
def Params.default : Params :=
  { bufCap := 36, resyncLimit := 3, failsafeLimit := 32, cntW := 16, crcPoly := 0xD5#8 }

/-- The largest value of a `CNT_W`-bit counter (00_scope.md R13). -/
def Params.counterMax (p : Params) : Nat := 2 ^ p.cntW - 1

/-- `POS_W`, the width of `pos` and `exp` (00_scope.md R9). -/
def Params.posW (p : Params) : Nat := Nat.clog 2 (p.bufCap + 1)

namespace Config

/-- `CH_COUNT` (00_scope.md R8). -/
def chCount : Nat := 16

/-- `CH_BITS` (00_scope.md R8). -/
def chBits : Nat := 11

/-- `CH_TYPE` (00_scope.md R8). -/
def chType : Byte := 0x16#8

/-- `CH_PAYLOAD` (00_scope.md R8). -/
def chPayload : Nat := 22

/-- `CH_LEN` (00_scope.md R8). -/
def chLen : Nat := 24

/-- `HDR`, the address and length bytes (00_scope.md R8). -/
def hdr : Nat := 2

/-- `CRC_SEED` (00_scope.md R8). -/
def crcSeed : Byte := 0#8

/-- The power-on contents of the frame buffer, by origin (which power-on of which block) and index: unspecified, so a draw
(00_scope.md R19, 10_state.md R27, 93_implementation_defined.md U4). A FREE VALUE (logs 3 and 21). -/
opaque powerOnByte : Nat → Nat → Byte

/-- By origin (which power-on of which block) and n: the n-th choice the block or its platform makes where the spec leaves
one open: which waiting request is served (60_exceptions.md R131), which slot write lands next (20_memory.md R50), when a
READ is served (R51). A FREE VALUE (logs 6 and 21). -/
opaque choice : Nat → Nat → Nat

end Config

end Sys2Proof
end

