-- ==== Sys2Proof/Syntax.lean ====
section
/-! DEFINITION. The command set: one constructor per row of spec/opcode_table.json (30_encoding.md R62). -/

namespace Sys2Proof

/-- The block's commands (30_encoding.md R62, R63). -/
inductive Instr where
  /-- INIT: bind and initialise the block (43_store_lifecycle.md R122). -/
  | init
  /-- BYTE: deliver one received byte (40_assembler.md R82). -/
  | byte (b : Byte)
  /-- TICK: one Supervisor tick (42_supervisor.md R107). -/
  | tick
  /-- READ: read one Channel Store slot (43_store_lifecycle.md R119). -/
  | read (idx : Byte)
  deriving DecidableEq, Repr

/-- The port a command belongs to (30_encoding.md R60, R62). -/
def Instr.port : Instr → Port
  | .init => .event
  | .byte _ => .event
  | .tick => .event
  | .read _ => .read

end Sys2Proof
end

