-- ==== Sys2Proof/WellFormed.lean ====
section
/-! DEFINITION. The checks on what is given to the block: a command is on its own port (30_encoding.md R64), and the
build-time parameters are in their legal ranges (00_scope.md R8). -/

namespace Sys2Proof

/-- A command is well formed on a port when it belongs to it. Operands need no check: each 8-bit value is legal
(30_encoding.md R63). -/
def Instr.wellFormedOn (p : Port) (i : Instr) : Bool := decide (i.port = p)

/-- `26 ≤ BUF_CAP ≤ 257` (00_scope.md R8). -/
def Params.bufCapLegal (p : Params) : Bool := decide (26 ≤ p.bufCap ∧ p.bufCap ≤ 257)

/-- `2 ≤ CNT_W ≤ 32` (00_scope.md R8). -/
def Params.cntWLegal (p : Params) : Bool := decide (2 ≤ p.cntW ∧ p.cntW ≤ 32)

/-- `RESYNC_LIMIT ≤ 2^CNT_W − 2` (00_scope.md R8). -/
def Params.resyncLimitLegal (p : Params) : Bool := decide (p.resyncLimit + 2 ≤ 2 ^ p.cntW)

/-- `FAILSAFE_LIMIT ≤ 2^CNT_W − 2` (00_scope.md R8). -/
def Params.failsafeLimitLegal (p : Params) : Bool := decide (p.failsafeLimit + 2 ≤ 2 ^ p.cntW)

/-- The parameters are in the legal ranges of 00_scope.md R8. Every `CRC_POLY` is legal, and no relation between the two
limits is assumed. -/
def Params.legal (p : Params) : Bool :=
  p.bufCapLegal && p.cntWLegal && p.resyncLimitLegal && p.failsafeLimitLegal

end Sys2Proof
end

