-- ==== Sys2Proof/Decode.lean ====
section
/-! DEFINITION. Command words to commands and back (30_encoding.md R61 to R64). A command word is a parallel port value and
has no byte order (20_memory.md R41). -/

namespace Sys2Proof

/-- Why a word is illegal on a port (30_encoding.md R64). -/
inductive DecodeError where
  /-- `OPC` is 0x0 or 0x5 to 0xF. -/
  | reservedOpcode
  /-- `RSV ≠ 0000`. -/
  | reservedField
  /-- `OPD ≠ 0x00` for INIT or TICK. -/
  | operandNotZero
  /-- READ on the event port, or INIT, BYTE or TICK on the read port. -/
  | wrongPort
  deriving DecidableEq, Repr

/-- `OPC`, bits [15:12] (30_encoding.md R61). -/
def fieldOPC (w : CommandWord) : BitVec 4 := w.extractLsb' 12 4

/-- `RSV`, bits [11:8] (30_encoding.md R61). -/
def fieldRSV (w : CommandWord) : BitVec 4 := w.extractLsb' 8 4

/-- `OPD`, bits [7:0] (30_encoding.md R61, R63: never sign-extended, scaled or shifted). -/
def fieldOPD (w : CommandWord) : Byte := w.extractLsb' 0 8

/-- The rows of 30_encoding.md R62, whatever the port. -/
def decodeWord (w : CommandWord) : Except DecodeError Instr :=
  if fieldRSV w ≠ 0#4 then .error .reservedField
  else if fieldOPC w = 0x1#4 then
    if fieldOPD w = 0#8 then .ok .init else .error .operandNotZero
  else if fieldOPC w = 0x2#4 then .ok (.byte (fieldOPD w))
  else if fieldOPC w = 0x3#4 then
    if fieldOPD w = 0#8 then .ok .tick else .error .operandNotZero
  else if fieldOPC w = 0x4#4 then .ok (.read (fieldOPD w))
  else .error .reservedOpcode

/-- The command a word denotes on a port, or why it is illegal there (30_encoding.md R64). -/
def decodeOn (p : Port) (w : CommandWord) : Except DecodeError Instr :=
  match decodeWord w with
  | .error e => .error e
  | .ok i => if i.wellFormedOn p then .ok i else .error .wrongPort

/-- The word of the given fields with `RSV = 0000` (30_encoding.md R61). -/
def commandWord (opc : BitVec 4) (opd : Byte) : CommandWord := opc ++ 0#4 ++ opd

/-- The word of a command (30_encoding.md R62). -/
def encode : Instr → CommandWord
  | .init => commandWord 0x1#4 0#8
  | .byte b => commandWord 0x2#4 b
  | .tick => commandWord 0x3#4 0#8
  | .read idx => commandWord 0x4#4 idx

/-- The command an opcode-table word denotes on the port it belongs to. A row is one 16-bit word; `nbits` below 16 leaves
the bits above it 0, and there is no longer command (30_encoding.md R61). -/
def decodeTableWord (nbits w : Nat) : Option Instr :=
  if nbits ≤ 16 then
    match decodeWord (BitVec.ofNat 16 (w % 2 ^ nbits)) with
    | .ok i => some i
    | .error _ => none
  else none

end Sys2Proof
end

