-- ==== Sys2Proof/Machine/State.lean ====
section
/-! DEFINITION. The state of the block and of its ports as plain data, the reasons a step can stop, and power-on reset
(10_state.md R20, 70_reset_and_hazards.md R141). -/

namespace Sys2Proof.Machine

/-- The content of one Channel Store slot (10_state.md R30, R31): a value, or one of the two sentinels, whose `val` field
is 0. Tag 11 is never stored (93_implementation_defined.md U18) and cannot be written down here (log 16). -/
inductive Slot where
  /-- Tag 00 `VALUE`. -/
  | value (v : Channel)
  /-- Tag 01 `NO_DRIVER`, never initialised. -/
  | noDriver
  /-- Tag 10 `TIMEOUT`, failsafe-expired. -/
  | timeout
  deriving DecidableEq, Repr

/-- The sixteen slots (10_state.md R30, 20_memory.md R36). -/
abbrev Store := Vector Slot 16

/-- The frame buffer's written bytes by index, indices strictly rising (20_memory.md R36, R39). An index that is not
listed has not been written since power-on and holds no value here; a read of it takes the free value
`Config.powerOnByte` (10_state.md R27; log 3). -/
abbrev Memory := List Host.Cell

/-- The canonical form of `Memory`: indices strictly rise. No entry can equal what an unlisted index holds, which is no
value. -/
abbrev Memory.wf (m : Memory) : Prop := (m.map Prod.fst).Pairwise (· < ·)

/-- An event operation in progress (10_state.md R35, 20_memory.md R55): its register updates are done, its slot writes
land one by one, then its response is produced. -/
structure Pending where
  /-- The single-slot writes still to land (20_memory.md R50). -/
  writes : List (Fin 16 × Slot)
  /-- The response the operation gives when all of them have landed (20_memory.md R52). -/
  resp : EventWord
  deriving DecidableEq, Repr

/-- The reasons a step stops with a fault. -/
inductive Fault where
  /-- Raised by the two frame-buffer accesses `bufRead` and `bufSlice` and by `bufWrite` for an index outside
  `0 ≤ i < BUF_CAP`, which does not exist (00_scope.md R12, 93_implementation_defined.md U19). Safe: no rule forms such an
  index in a state that meets the invariant of 10_state.md R33 (log 4). -/
  | bufferIndex (i : Nat)
  deriving DecidableEq, Repr

/-- The reasons an instruction has no meaning. -/
inductive Refusal where
  /-- An instruction that has no meaning yet, by its mnemonic. Safe. No arm of this model answers it. -/
  | notModelled (mnemonic : String)
  deriving DecidableEq, Repr

/-- The block, its ports, and what waits at them. INVENTORY.md gives each field's rule. -/
structure State where
  /-- The build-time parameters (00_scope.md R8). No step writes them (log 1). -/
  params : Params
  /-- Set by INIT (10_state.md R24). -/
  bound : Bool
  /-- Bytes of the current frame already written (10_state.md R25). -/
  pos : Nat
  /-- Target size of the current frame, `BUF_CAP` while unknown (10_state.md R26). -/
  exp : Nat
  /-- The frame buffer (10_state.md R27). -/
  buf : Memory
  /-- Ticks since any byte (10_state.md R28). -/
  slb : Nat
  /-- Ticks since a valid frame (10_state.md R29). -/
  slvf : Nat
  /-- The Channel Store (10_state.md R30). -/
  store : Store
  /-- The event operation in progress, `none` while the event port is idle (10_state.md R35). -/
  op : Option Pending
  /-- The event response the port shows: none while an operation is in progress and before the first (log 9). -/
  evr : Option EventWord
  /-- The read response the port shows: none before the first READ (log 9). -/
  rdr : Option ReadWord
  /-- Command words the host holds presented to the event port, oldest first (00_scope.md R6; log 5). -/
  hostReq : List CommandWord
  /-- Command words the transport byte path holds presented (00_scope.md R6; log 5). -/
  byteReq : List CommandWord
  /-- Command words the transport tick path holds presented (00_scope.md R6; log 5). -/
  tickReq : List CommandWord
  /-- Command words the consumer holds presented to the read port (20_memory.md R53; log 5). -/
  readReq : List CommandWord
  /-- How many open choices have been drawn: the model's own counter (log 6). -/
  draws : Nat
  /-- Which power-on of which block this state stems from: the model's own field, which no step writes. The free values are
  drawn apart for each origin, so that blocks share none of them (60_exceptions.md R137, 00_scope.md R19; log 21). -/
  origin : Nat
  deriving DecidableEq, Repr

/-- Power-on reset of a block built with the given parameters (70_reset_and_hazards.md R141). Each power-on of each block
has an `origin` of its own (log 21). -/
def State.powerOn (p : Params) (origin : Nat) : State :=
  { params := p, bound := false, pos := 0, exp := p.bufCap, buf := [], slb := 0, slvf := 0,
    store := Vector.replicate 16 .noDriver, op := none, evr := none, rdr := none,
    hostReq := [], byteReq := [], tickReq := [], readReq := [], draws := 0, origin := origin }

/-- The machine right after power-on reset, with the default parameters (00_scope.md R8) and origin 0 (log 21). -/
def State.reset : State := State.powerOn Params.default 0

end Sys2Proof.Machine
end

