-- ==== Sys2Proof/Machine/Flags.lean ====
section
/-! DEFINITION. What an operation reports: outcome codes and response words (30_encoding.md R65, R66; 60_exceptions.md
R128). The block has no condition codes (10_state.md R24); these response fields are all it reports. -/

namespace Sys2Proof.Machine

/-- The `status` field of an event response (30_encoding.md R65). Code 10 is never produced
(93_implementation_defined.md U17). -/
inductive Status where
  | ok
  | unbound
  | illegal
  deriving DecidableEq, Repr

/-- The two bits of `status`, `evr[31:30]` (30_encoding.md R65). -/
def statusCode : Status → BitVec 2
  | .ok => 0b00#2
  | .unbound => 0b01#2
  | .illegal => 0b11#2

/-- The frame outcome of a BYTE (60_exceptions.md R128). -/
inductive Evt where
  /-- NONE: byte appended, no frame completed or abandoned. -/
  | none
  /-- CHANNELS: a channel frame was decoded into the store. -/
  | channels
  /-- OTHER: a valid frame that is not a channel frame completed. -/
  | other
  /-- CRC: a frame completed with a CRC mismatch and was discarded. -/
  | crc
  /-- SHORT: a frame with length byte 0 or 1 completed and was discarded. -/
  | short
  /-- OVERSIZE: the length byte implied more than `BUF_CAP` bytes; attempt abandoned. -/
  | oversize
  deriving DecidableEq, Repr

/-- The four bits of `evt`, `evr[11:8]` (60_exceptions.md R128). Codes 6 to 15 are never produced. -/
def evtCode : Evt → BitVec 4
  | .none => 0#4
  | .channels => 1#4
  | .other => 2#4
  | .crc => 3#4
  | .short => 4#4
  | .oversize => 5#4

/-- The fields of an event response (30_encoding.md R65); a field not named by `respond` is 0 (00_scope.md R15). The
`woke` bit has no field: it is 0 in every response (40_assembler.md R85). -/
structure EventResponse where
  status : Status
  headroom : Nat
  evt : Evt := .none
  failsafe : Bool := false
  resync : Bool := false
  consumed : Bool := false
  deriving DecidableEq, Repr

/-- The layout of `evr` (30_encoding.md R65): status [31:30], headroom [24:16], evt [11:8], failsafe [3], resync [2],
woke [1] = 0, consumed [0], 0 elsewhere. -/
def eventWord (r : EventResponse) : EventWord :=
  statusCode r.status ++ 0#5 ++ BitVec.ofNat 9 r.headroom ++ 0#4 ++ evtCode r.evt ++ 0#4 ++
    BitVec.ofBool r.failsafe ++ BitVec.ofBool r.resync ++ 0#1 ++ BitVec.ofBool r.consumed

/-- The `tag` field of a slot, slot bits [12:11] (10_state.md R30). -/
def slotTag : Slot → BitVec 2
  | .value _ => 0b00#2
  | .noDriver => 0b01#2
  | .timeout => 0b10#2

/-- The `val` field of a slot, slot bits [10:0]: the channel value, 0 under a sentinel (10_state.md R30). -/
def slotVal : Slot → Channel
  | .value v => v
  | .noDriver => 0#11
  | .timeout => 0#11

/-- A slot as its 13 bits (10_state.md R30). -/
def slotBits (s : Slot) : BitVec 13 := slotTag s ++ slotVal s

/-- What a read-port command returns (30_encoding.md R66). -/
inductive ReadResult where
  /-- The slot read. -/
  | slot (s : Slot)
  /-- `InvalidIndex`: the index is 16 to 255. -/
  | invalidIndex
  /-- The word is illegal on the read port. -/
  | illegal
  deriving DecidableEq, Repr

/-- The layout of `rdr` (30_encoding.md R66): tag [15:14], illegal [13], value [10:0], 0 elsewhere. -/
def readWord : ReadResult → ReadWord
  | .slot s => slotTag s ++ 0#1 ++ 0#2 ++ slotVal s
  | .invalidIndex => 0b11#2 ++ 0#1 ++ 0#2 ++ 0#11
  | .illegal => 0b11#2 ++ 1#1 ++ 0#2 ++ 0#11

end Sys2Proof.Machine
end

