-- ==== Sys2Proof/Machine/Operands.lean ====
section
/-! DEFINITION. Operands: the channel index of READ (30_encoding.md R63), the slots an operation writes, and the bit field of
a channel in a payload (30_encoding.md R71, R74; 41_decoder.md R100). -/

namespace Sys2Proof.Machine

/-- The slot a READ operand names: none for 16 to 255 (43_store_lifecycle.md R119). -/
def slotIndex (idx : Byte) : Option (Fin 16) :=
  if h : idx.toNat < 16 then some ⟨idx.toNat, h⟩ else none

/-- The sixteen slot indices (20_memory.md R38). -/
def allSlots : List (Fin 16) := List.finRange 16

/-- The writes that set every slot to one content (42_supervisor.md R107, 43_store_lifecycle.md R122). -/
def everySlot (v : Slot) : List (Fin 16 × Slot) := allSlots.map fun i => (i, v)

/-- The first payload byte of channel `i`, `k = ⌊11i/8⌋` (30_encoding.md R71). -/
def channelByte (i : Nat) : Nat := 11 * i / 8

/-- The right shift of channel `i`, `s = (11i) mod 8` (30_encoding.md R71). -/
def channelShift (i : Nat) : Nat := 11 * i % 8

/-- `p(j)`: payload byte `j`, and 0 past the payload, which only `p(22)` is (41_decoder.md R100). -/
def payloadByte (p : List Byte) (j : Nat) : Byte := p.getD j 0#8

/-- The 24-bit window of channel `i` (41_decoder.md R100). -/
def channelWindow (p : List Byte) (i : Nat) : BitVec 24 :=
  let k := channelByte i
  (payloadByte p k).setWidth 24 ||| ((payloadByte p (k + 1)).setWidth 24 <<< 8) |||
    ((payloadByte p (k + 2)).setWidth 24 <<< 16)

/-- `Unpack(i)`: the window shifted right and masked to 11 bits (41_decoder.md R100). -/
def unpack (p : List Byte) (i : Nat) : Channel := (channelWindow p i >>> channelShift i).setWidth 11

/-- The writes of a channel frame: every slot `i` gets `{VALUE, Unpack(i)}` (41_decoder.md R93, R101). -/
def channelWrites (p : List Byte) : List (Fin 16 × Slot) :=
  allSlots.map fun i => (i, .value (unpack p i))

/-- `P = Σ payload[j] · 2^(8j)`, the payload as one little-endian unsigned integer (20_memory.md R40). -/
def payloadNumber : List Byte → Nat
  | [] => 0
  | b :: p => b.toNat + 256 * payloadNumber p

/-- `P = Σ ci · 2^(11i)` (30_encoding.md R74). -/
def channelsNumber : List Channel → Nat
  | [] => 0
  | c :: cs => c.toNat + 2048 * channelsNumber cs

/-- The packing of 30_encoding.md R74: `pj = P[8j+7 : 8j]` for `j = 0..21`. -/
def packChannels (c : List Channel) : List Byte :=
  (List.range Config.chPayload).map fun j => BitVec.ofNat 8 (channelsNumber c / 2 ^ (8 * j))

end Sys2Proof.Machine
end

