-- ==== Sys2Proof/Machine/Ops.lean ====
section
/-! DEFINITION. The named operations over the frame buffer, the store, the counters and the operation in progress, and the
CRC-8 function. The block takes no exception and returns from none (60_exceptions.md R126). -/

namespace Sys2Proof.Machine

/-! The frame buffer. -/

/-- The byte an index holds, none when nothing has been written there since power-on. -/
def Memory.read : Memory → Nat → Option Byte
  | [], _ => none
  | (k, v) :: m, a => if k = a then some v else Memory.read m a

/-- Writes one byte and keeps the canonical form. -/
def Memory.write : Memory → Nat → Byte → Memory
  | [], a, b => [(a, b)]
  | (k, v) :: m, a, b =>
    if a < k then (a, b) :: (k, v) :: m
    else if a = k then (a, b) :: m
    else (k, v) :: Memory.write m a b

/-- The byte at an index; its power-on content, a free value, when nothing has been written there (10_state.md R27,
93_implementation_defined.md U4; log 3). -/
def byteAt (s : State) (i : Nat) : Byte := (s.buf.read i).getD (Config.powerOnByte s.origin i)

/-- `BufRead(i)`, `0 ≤ i < BUF_CAP` (00_scope.md R12; log 4). -/
def bufRead (i : Nat) (s : State) : Except Fault Byte :=
  if i < s.params.bufCap then .ok (byteAt s i) else .error (.bufferIndex i)

/-- The `n` bytes from index `a` on, `buf[a .. a+n−1]` (00_scope.md R14; log 4). -/
def bufSlice (a n : Nat) (s : State) : Except Fault (List Byte) :=
  if a + n ≤ s.params.bufCap then .ok ((List.range' a n).map (byteAt s))
  else .error (.bufferIndex (a + n - 1))

/-- `BufWrite(i, b)`, `0 ≤ i < BUF_CAP` (00_scope.md R12; log 4). -/
def bufWrite (i : Nat) (b : Byte) (s : State) : Except Fault State :=
  if i < s.params.bufCap then .ok { s with buf := s.buf.write i b } else .error (.bufferIndex i)

/-! The CRC-8 function. -/

/-- One of the eight shifts of 41_decoder.md R90. -/
def crcShift (poly c : Byte) : Byte := if c.msb then (c <<< 1) ^^^ poly else c <<< 1

/-- One byte of 41_decoder.md R90: XOR it in, then shift eight times. -/
def crcByte (poly c x : Byte) : Byte := Nat.repeat (crcShift poly) 8 (c ^^^ x)

/-- `crc8(seed, seq)` (41_decoder.md R90, 00_scope.md R14). -/
def crc8 (poly seed : Byte) (seq : List Byte) : Byte := seq.foldl (crcByte poly) seed

/-! The Assembler. -/

/-- `AsmReset()` (40_assembler.md R75). -/
def asmReset (s : State) : State := { s with pos := 0, exp := s.params.bufCap }

/-- `Append(b)` (40_assembler.md R76). -/
def append (b : Byte) (s : State) : Except Fault State :=
  match bufWrite s.pos b { s with slb := 0 } with
  | .error f => .error f
  | .ok t => .ok { t with pos := t.pos + 1 }

/-- Length capture and bound check (40_assembler.md R77, R78): when `pos` has become 2, `e = 2 + buf[1]` is either above
`BUF_CAP` and the attempt is abandoned, or becomes `exp`. -/
def captureLength (s : State) : Except Fault (State × Evt) :=
  if s.pos = 2 then
    match bufRead 1 s with
    | .error f => .error f
    | .ok l =>
      let e := Config.hdr + l.toNat
      if e > s.params.bufCap then .ok (asmReset s, .oversize) else .ok ({ s with exp := e }, .none)
  else .ok (s, .none)

/-- What the Decoder finds: the state with `slvf` as it leaves it, the outcome, and the slot writes it makes. -/
structure Decoded where
  state : State
  evt : Evt
  writes : List (Fin 16 × Slot)
  deriving DecidableEq, Repr

/-- The dispatch of a valid frame, its length byte `l`, by type and length (41_decoder.md R98, R99, R102). -/
def dispatchFrame (l : Byte) (s : State) : Except Fault Decoded :=
  match bufRead 2 s with
  | .error f => .error f
  | .ok ty =>
    if ty = Config.chType ∧ l.toNat = Config.chLen then
      match bufSlice 3 Config.chPayload s with
      | .error f => .error f
      | .ok p => .ok ⟨{ s with slvf := 0 }, .channels, channelWrites p⟩
    else .ok ⟨{ s with slvf := 0 }, .other, []⟩

/-- The CRC check of a frame of length byte `l ≥ 2`, then its dispatch (41_decoder.md R93, R96). -/
def checkFrame (l : Byte) (s : State) : Except Fault Decoded :=
  match bufSlice 2 (l.toNat - 1) s with
  | .error f => .error f
  | .ok span =>
    match bufRead (l.toNat + 1) s with
    | .error f => .error f
    | .ok c =>
      if crc8 s.params.crcPoly Config.crcSeed span = c then dispatchFrame l s else .ok ⟨s, .crc, []⟩

/-- `Decode()` of the complete frame (41_decoder.md R93, R95, R103). -/
def decodeFrame (s : State) : Except Fault Decoded :=
  match bufRead 1 s with
  | .error f => .error f
  | .ok l => if l.toNat < 2 then .ok ⟨s, .short, []⟩ else checkFrame l s

/-- Completion (40_assembler.md R79): when no attempt was abandoned and `pos` has reached `exp`, decode the frame and
reset the Assembler. -/
def complete (s : State) (evt : Evt) : Except Fault Decoded :=
  if evt = .none ∧ 2 ≤ s.pos ∧ s.pos = s.exp then
    match decodeFrame s with
    | .error f => .error f
    | .ok d => .ok { d with state := asmReset d.state }
  else .ok ⟨s, evt, []⟩

/-! The Supervisor. -/

/-- `sat_inc` (00_scope.md R13, 42_supervisor.md R114). -/
def satInc (p : Params) (c : Nat) : Nat := if c < p.counterMax then c + 1 else c

/-- The resync check (42_supervisor.md R109): its state and whether it fired. -/
def resyncCheck (s : State) : State × Bool :=
  let n := satInc s.params s.slb
  if n > s.params.resyncLimit then (asmReset { s with slb := n }, true) else ({ s with slb := n }, false)

/-- The link-loss check (42_supervisor.md R110): its state and whether it fired. The slot writes are the caller's. -/
def failsafeCheck (s : State) : State × Bool :=
  let n := satInc s.params s.slvf
  ({ s with slvf := n }, decide (n > s.params.failsafeLimit))

/-! Operations: acceptance, slot writes, response. -/

/-- `headroom` (40_assembler.md R86). -/
def headroom (s : State) : Nat := s.params.bufCap - s.pos

/-- Opens an operation whose register updates are done: its slot writes will land and its response follow
(20_memory.md R55, R48). -/
def beginOp (writes : List (Fin 16 × Slot)) (r : EventResponse) (s : State) : State :=
  { s with op := some ⟨writes, eventWord r⟩, evr := none }

/-- Makes single-slot writes, first to last (20_memory.md R44, R50). -/
def applyWrites (ws : List (Fin 16 × Slot)) (st : Store) : Store :=
  ws.foldl (fun t w => t.set w.1 w.2) st

/-- Completes the operation in progress, if there is one: the remaining slot writes land and the response is produced
(00_scope.md R16, 20_memory.md R52). -/
def settle (s : State) : State :=
  match s.op with
  | none => s
  | some p => { s with store := applyWrites p.writes s.store, op := none, evr := some p.resp }

/-- The whole of an event operation (00_scope.md R16): accepted when the event port is idle, from its register updates to
its response. While another operation is in progress the port does not accept it and nothing changes
(20_memory.md R48, 70_reset_and_hazards.md R145; log 8). -/
def wholeOp (begun : State → Except Fault State) (s : State) : Host.Outcome State Fault Refusal :=
  match s.op with
  | some _ => .next s
  | none =>
    match begun s with
    | .ok t => .next (settle t)
    | .error f => .fault f

/-- The start of an event operation only: its register updates. Its slot writes and its response are left in progress
(20_memory.md R55; log 7). -/
def openOp (begun : State → Except Fault State) (s : State) : Host.Outcome State Fault Refusal :=
  match s.op with
  | some _ => .next s
  | none =>
    match begun s with
    | .ok t => .next t
    | .error f => .fault f

/-- The k-th remaining slot write lands (20_memory.md R44, R50). -/
def landWrite (k : Nat) (s : State) : State :=
  match s.op with
  | none => s
  | some p =>
    match p.writes[k]? with
    | none => s
    | some w => { s with store := s.store.set w.1 w.2, op := some { p with writes := p.writes.eraseIdx k } }

end Sys2Proof.Machine
end

