-- ==== Sys2Proof/Machine/Accessor.lean ====
section
/-! DEFINITION. The Channel Store accessor, READ (43_store_lifecycle.md R119), and the read port's answer to an illegal word
(R125). -/

namespace Sys2Proof.Machine

/-- What a READ of `idx` returns (43_store_lifecycle.md R119): one slot as it stands, or `InvalidIndex`. -/
def readSlot (idx : Byte) (s : State) : ReadResult :=
  match slotIndex idx with
  | some i => .slot s.store[i]
  | none => .invalidIndex

/-- Puts a read response on the read port; nothing else changes (20_memory.md R45). -/
def respondRead (r : ReadResult) (s : State) : State := { s with rdr := some (readWord r) }

/-- READ (43_store_lifecycle.md R119). It reads neither `bound` nor the operation in progress (20_memory.md R51). -/
def execRead (idx : Byte) (s : State) : Host.Outcome State Fault Refusal :=
  .next (respondRead (readSlot idx s) s)

end Sys2Proof.Machine
end

