-- ==== Sys2Proof/Machine/Assembler.lean ====
section
/-! DEFINITION. The Frame Assembler's operation, BYTE (40_assembler.md R82). -/

namespace Sys2Proof.Machine

/-- A BYTE accepted while bound (40_assembler.md R82, R84): append, capture the length, complete. -/
def boundByte (b : Byte) (s : State) : Except Fault State :=
  match append b s with
  | .error f => .error f
  | .ok s1 =>
    match captureLength s1 with
    | .error f => .error f
    | .ok (s2, evt) =>
      match complete s2 evt with
      | .error f => .error f
      | .ok d =>
        .ok (beginOp d.writes
          { status := .ok, headroom := headroom d.state, evt := d.evt, consumed := true } d.state)

/-- BYTE up to its slot writes (40_assembler.md R82); while unbound it changes no register (R83). -/
def beginByte (b : Byte) (s : State) : Except Fault State :=
  if s.bound then boundByte b s
  else .ok (beginOp [] { status := .unbound, headroom := headroom s } s)

/-- BYTE (40_assembler.md R82). -/
def execByte (b : Byte) (s : State) : Host.Outcome State Fault Refusal := wholeOp (beginByte b) s

end Sys2Proof.Machine
end

