-- ==== Sys2Proof/Machine/Lifecycle.lean ====
section
/-! DEFINITION. INIT (43_store_lifecycle.md R122) and the event port's answer to an illegal word (R125). -/

namespace Sys2Proof.Machine

/-- INIT up to its slot writes (43_store_lifecycle.md R122). -/
def beginInit (s : State) : Except Fault State :=
  .ok (beginOp (everySlot .noDriver) { status := .ok, headroom := s.params.bufCap }
    { asmReset s with bound := true, slb := 0, slvf := 0 })

/-- INIT (43_store_lifecycle.md R122). -/
def execInit (s : State) : Host.Outcome State Fault Refusal := wholeOp beginInit s

/-- `ILLEGAL(w)` on the event port: no register changes (43_store_lifecycle.md R125). -/
def beginIllegal (s : State) : Except Fault State :=
  .ok (beginOp [] { status := .illegal, headroom := headroom s } s)

end Sys2Proof.Machine
end

