-- ==== Sys2Proof/Machine/Supervisor.lean ====
section
/-! DEFINITION. The Failsafe Supervisor's operation, TICK (42_supervisor.md R107). -/

namespace Sys2Proof.Machine

/-- A TICK accepted while bound (42_supervisor.md R107): the resync check, then the link-loss check (R112). -/
def boundTick (s : State) : State :=
  let r := resyncCheck s
  let f := failsafeCheck r.1
  beginOp (if f.2 then everySlot .timeout else [])
    { status := .ok, headroom := headroom f.1, resync := r.2, failsafe := f.2 } f.1

/-- TICK up to its slot writes (42_supervisor.md R107); while unbound it changes no register (R108). -/
def beginTick (s : State) : Except Fault State :=
  if s.bound then .ok (boundTick s)
  else .ok (beginOp [] { status := .unbound, headroom := headroom s } s)

/-- TICK (42_supervisor.md R107). -/
def execTick (s : State) : Host.Outcome State Fault Refusal := wholeOp beginTick s

end Sys2Proof.Machine
end

