-- ==== Sys2Proof/Machine/Dispatch.lean ====
section
/-! DEFINITION. One arm per command. -/

namespace Sys2Proof.Machine

def exec (i : Instr) (s : State) : Host.Outcome State Fault Refusal :=
  match i with
  | .init => Sys2Proof.Machine.execInit s
  | .byte b => Sys2Proof.Machine.execByte b s
  | .tick => Sys2Proof.Machine.execTick s
  | .read idx => Sys2Proof.Machine.execRead idx s

end Sys2Proof.Machine
end

