-- ==== Sys2Proof/Machine/Scheduler.lean ====
section
/-! DEFINITION. The two ports: the requests that wait at them, what the block can do next, and doing it
(20_memory.md R48 to R55, 60_exceptions.md R130 to R133, 70_reset_and_hazards.md R145). -/

namespace Sys2Proof.Machine

/-- The agents that share the event port (00_scope.md R6). -/
inductive Requester where
  | host
  | bytePath
  | tickPath
  deriving DecidableEq, Repr

/-- The words a requester holds presented, oldest first (70_reset_and_hazards.md R145; log 5). -/
def waiting (r : Requester) (s : State) : List CommandWord :=
  match r with
  | .host => s.hostReq
  | .bytePath => s.byteReq
  | .tickPath => s.tickReq

/-- Sets the words a requester holds presented. -/
def setWaiting (r : Requester) (ws : List CommandWord) (s : State) : State :=
  match r with
  | .host => { s with hostReq := ws }
  | .bytePath => { s with byteReq := ws }
  | .tickPath => { s with tickReq := ws }

/-- A requester presents a further word to the event port (30_encoding.md R60): the outside world's, not a step's. -/
def State.presentEvent (s : State) (r : Requester) (w : CommandWord) : State :=
  setWaiting r (waiting r s ++ [w]) s

/-- The consumer presents a further word to the read port (30_encoding.md R60): the outside world's, not a step's. -/
def State.presentRead (s : State) (w : CommandWord) : State := { s with readReq := s.readReq ++ [w] }

/-- What the block can do next (20_memory.md R55). -/
inductive Action where
  /-- Accept a requester's oldest word on the idle event port. -/
  | accept (r : Requester)
  /-- The k-th remaining slot write of the operation in progress lands. -/
  | land (k : Nat)
  /-- All slot writes have landed: produce the response. -/
  | respond
  /-- Serve the consumer's oldest word on the read port. -/
  | serveRead
  deriving DecidableEq, Repr

/-- The event port's next actions: any waiting requester while idle (60_exceptions.md R131), any remaining slot write while
an operation is in progress (20_memory.md R50), its response when none is left. -/
def eventActions (s : State) : List Action :=
  match s.op with
  | none =>
    ([Requester.host, .bytePath, .tickPath].filter fun r => !(waiting r s).isEmpty).map .accept
  | some p => if p.writes.isEmpty then [.respond] else (List.range p.writes.length).map .land

/-- The read port's next action: a waiting READ can be served at any time (20_memory.md R51, 60_exceptions.md R133). -/
def readActions (s : State) : List Action := if s.readReq.isEmpty then [] else [.serveRead]

/-- Everything the block can do next; the spec orders none of it. -/
def enabled (s : State) : List Action := eventActions s ++ readActions s

/-- An event operation: whole when no READ is waiting, so that nothing can observe it in part (10_state.md R35); opened
and left in progress when one is (log 7). -/
def runOp (begun : State → Except Fault State) (s : State) : Host.Outcome State Fault Refusal :=
  if s.readReq.isEmpty then wholeOp begun s else openOp begun s

/-- The start of a command's operation on the event port. READ is none of its commands and starts nothing. -/
def beginInstr (i : Instr) (s : State) : Except Fault State :=
  match i with
  | .init => beginInit s
  | .byte b => beginByte b s
  | .tick => beginTick s
  | .read _ => .ok s

/-- An accepted event command: `exec` of it when no READ is waiting, else its start (log 7). -/
def runEvent (i : Instr) (s : State) : Host.Outcome State Fault Refusal :=
  if s.readReq.isEmpty then exec i s else openOp (beginInstr i) s

/-- An accepted word on the event port (30_encoding.md R64, 43_store_lifecycle.md R125; log 13). -/
def acceptEvent (w : CommandWord) (s : State) : Host.Outcome State Fault Refusal :=
  match decodeOn .event w with
  | .ok i => runEvent i s
  | .error _ => runOp beginIllegal s

/-- An accepted word on the read port (30_encoding.md R64, 43_store_lifecycle.md R125; log 13). -/
def acceptRead (w : CommandWord) (s : State) : Host.Outcome State Fault Refusal :=
  match decodeOn .read w with
  | .ok i => exec i s
  | .error _ => .next (respondRead .illegal s)

/-- Does one action. A requester with nothing presented has nothing accepted. -/
def perform (a : Action) (s : State) : Host.Outcome State Fault Refusal :=
  match a with
  | .accept r =>
    match waiting r s with
    | [] => .next s
    | w :: ws => acceptEvent w (setWaiting r ws s)
  | .land k => .next (landWrite k s)
  | .respond => .next (settle s)
  | .serveRead =>
    match s.readReq with
    | [] => .next s
    | w :: ws => acceptRead w { s with readReq := ws }

/-- One step under a given resolution of the open choices (00_scope.md R19): with nothing to do the block waits; with one
thing to do it does it; with more, `choice` of the next draw says which. -/
def stepWith (choice : Nat → Nat) (s : State) : Host.Outcome State Fault Refusal :=
  match enabled s with
  | [] => .next s
  | [a] => perform a s
  | a :: b :: rest =>
    perform ((a :: b :: rest).getD (choice s.draws % (rest.length + 2)) a) { s with draws := s.draws + 1 }

/-- The requester that issues a command (00_scope.md R6). A word that is no event command is the host's. -/
def requesterOf (w : CommandWord) : Requester :=
  match decodeOn .event w with
  | .ok (.byte _) => .bytePath
  | .ok .tick => .tickPath
  | _ => .host

/-- The state with one word presented, on its own port, and nothing else waiting or in progress (log 11). -/
def presentOnly (w : CommandWord) (s : State) : State :=
  let quiet := { settle s with hostReq := [], byteReq := [], tickReq := [], readReq := [] }
  match decodeOn .read w with
  | .ok _ => quiet.presentRead w
  | .error _ => quiet.presentEvent (requesterOf w) w

end Sys2Proof.Machine
end

