-- ==== Sys2Proof/Machine/Step.lean ====
section
/-! DEFINITION. One step of the machine, and how a command word is presented to it. -/

namespace Sys2Proof.Machine

/-- One step: what the block does next, the choices the spec leaves open being the free value `Config.choice`
of the state's own origin (00_scope.md R19; logs 6 and 21). -/
def step (s : State) : Host.Outcome State Fault Refusal := stepWith (Config.choice s.origin) s

/-- The state with the command word `w` the only request waiting, on the port it belongs to: the next step accepts and
runs it (log 11). A command is 16 bits; bits at and above `nbits` are 0 (30_encoding.md R61). -/
def State.withFetchWord (s : State) (nbits w : Nat) : State :=
  presentOnly (BitVec.ofNat 16 (w % 2 ^ nbits)) s

end Sys2Proof.Machine
end

