-- ==== Sys2Proof/Machine/Instances.lean ====
section
/-! DEFINITION. Several blocks side by side, one per physical receiver (60_exceptions.md R137, R138). -/

namespace Sys2Proof.Machine

/-- Blocks that have just been powered on, each with its own parameters and its own origin, from `first` on (log 21). -/
def powerOnBlocks (first : Nat) : List Params → List State
  | [] => []
  | p :: ps => State.powerOn p first :: powerOnBlocks (first + 1) ps

/-- No two blocks stem from the same power-on, so that no two draw the same free values (log 21). -/
def ownOrigins (blocks : List State) : Prop := (blocks.map State.origin).Nodup

/-- One step of the block at place `k` under a given resolution of every block's open choices, by origin: no other block
takes part (60_exceptions.md R137). With no block there, nothing happens. -/
def stepBlockWith (choice : Nat → Nat → Nat) (k : Nat) (blocks : List State) :
    Host.Outcome (List State) Fault Refusal :=
  match blocks[k]? with
  | none => .next blocks
  | some s =>
    match stepWith (choice s.origin) s with
    | .next t => .next (blocks.set k t)
    | .fault f => .fault f
    | .refused r => .refused r

/-- One step of the block at place `k` (60_exceptions.md R137). Blocks of different origins resolve their open choices
independently: the free value `Config.choice` takes the origin (logs 6 and 21). -/
def stepBlock (k : Nat) (blocks : List State) : Host.Outcome (List State) Fault Refusal :=
  stepBlockWith Config.choice k blocks

end Sys2Proof.Machine
end

