-- ==== Sys2Proof/Machine/Pseudo.lean ====
section
/-! DEFINITION. The pseudo-instructions of 30_encoding.md R73 and their expansions into commands, and the command words of a
sequence (R72). They are ways to write commands down; the block itself knows none of them. -/

namespace Sys2Proof.Machine

/-- A line of a command sequence: one command (30_encoding.md R72) or a pseudo-instruction (R73). -/
inductive Pseudo where
  | one (i : Instr)
  /-- `BYTES b0, ..., bn`. -/
  | bytes (bs : List Byte)
  /-- `TICKS n`. -/
  | ticks (n : Nat)
  /-- `FRAME a, t, p0, ..., p(m−1)`. -/
  | frame (a t : Byte) (p : List Byte)
  /-- `BADFRAME a, t, p0, ..., p(m−1)`. -/
  | badFrame (a t : Byte) (p : List Byte)
  /-- `CHFRAME a, c0, ..., c15`. -/
  | chFrame (a : Byte) (c : List Channel)
  /-- `READALL`. -/
  | readAll
  deriving DecidableEq, Repr

/-- The operands a pseudo-instruction needs: `m ≤ 253` payload bytes for a frame, sixteen values for CHFRAME
(30_encoding.md R73, R74). -/
def pseudoWellFormed : Pseudo → Bool
  | .frame _ _ p => decide (p.length ≤ 253)
  | .badFrame _ _ p => decide (p.length ≤ 253)
  | .chFrame _ c => decide (c.length = Config.chCount)
  | .one _ => true
  | .bytes _ => true
  | .ticks _ => true
  | .readAll => true

/-- The wire bytes of a frame with the given CRC byte (30_encoding.md R67, R73): address, length `m + 2`, type, payload,
CRC. -/
def wireFrame (a t : Byte) (p : List Byte) (c : Byte) : List Byte :=
  a :: BitVec.ofNat 8 (p.length + 2) :: t :: (p ++ [c])

/-- The CRC byte of a frame: `crc8` over type and payload (30_encoding.md R67, R73). -/
def frameCrc (poly t : Byte) (p : List Byte) : Byte := crc8 poly Config.crcSeed (t :: p)

/-- The bytes of a valid frame (30_encoding.md R73 `FRAME`). -/
def frameBytes (poly a t : Byte) (p : List Byte) : List Byte := wireFrame a t p (frameCrc poly t p)

/-- The commands a line denotes (30_encoding.md R72, R73). `poly` is the block's `CRC_POLY`. -/
def expandPseudo (poly : Byte) : Pseudo → List Instr
  | .one i => [i]
  | .bytes bs => bs.map .byte
  | .ticks n => List.replicate n .tick
  | .frame a t p => (frameBytes poly a t p).map .byte
  | .badFrame a t p => (wireFrame a t p (frameCrc poly t p ^^^ 1#8)).map .byte
  | .chFrame a c => (frameBytes poly a Config.chType (packChannels c)).map .byte
  | .readAll => (List.range Config.chCount).map fun i => .read (BitVec.ofNat 8 i)

/-- The command words of a sequence of lines (30_encoding.md R62, R72). -/
def sequenceWords (poly : Byte) (ls : List Pseudo) : List CommandWord :=
  (ls.flatMap (expandPseudo poly)).map encode

end Sys2Proof.Machine
end

