-- ==== Sys2Proof/Machine/Views.lean ====
section
/-! DEFINITION. The spec's views of the registers as state machines (40_assembler.md R81; 42_supervisor.md R115, R116). They
are functions of the state, not state. -/

namespace Sys2Proof.Machine

/-- The Assembler's states (40_assembler.md R81). -/
inductive AsmState where
  | addr
  | len
  | body (n e : Nat)
  deriving DecidableEq, Repr

/-- The Assembler's state (40_assembler.md R81). -/
def asmState (s : State) : AsmState :=
  if s.pos = 0 then .addr else if s.pos = 1 then .len else .body s.pos s.exp

/-- The sync detector's states (42_supervisor.md R115). -/
inductive SyncState where
  | receiving
  | gap
  deriving DecidableEq, Repr

/-- The sync detector's state (42_supervisor.md R115). -/
def syncState (s : State) : SyncState := if s.slb ≤ s.params.resyncLimit then .receiving else .gap

/-- The link-loss supervisor's states (42_supervisor.md R116). -/
inductive LinkState where
  | alive
  | lost
  deriving DecidableEq, Repr

/-- The link-loss supervisor's state (42_supervisor.md R116). -/
def linkState (s : State) : LinkState := if s.slvf ≤ s.params.failsafeLimit then .alive else .lost

end Sys2Proof.Machine
end

