-- ==== Sys2Proof/Safety.lean ====
section
/-! DEFINITION. What counts as a legal state and a safe run (10_state.md R31, R33, R34; 60_exceptions.md R126), and the terms
the statements use. -/

namespace Sys2Proof.Machine

/-- The invariant of the block: what holds between any two steps. -/
structure Inv (s : State) : Prop where
  /-- The build-time parameters are legal (00_scope.md R8). -/
  params_legal : s.params.legal = true
  /-- `pos < exp` (10_state.md R33). -/
  pos_lt_exp : s.pos < s.exp
  /-- `exp ≤ BUF_CAP` (10_state.md R33). -/
  exp_le_cap : s.exp ≤ s.params.bufCap
  /-- While the length byte has not been seen `exp` is `BUF_CAP` (10_state.md R26, R33). -/
  exp_unknown : s.pos ≤ 1 → s.exp = s.params.bufCap
  /-- From then on it is `2 + buf[1]`, a byte that has been written, and at least 3 (10_state.md R26, R33). -/
  exp_known : 2 ≤ s.pos → 3 ≤ s.exp ∧ ∃ l, s.buf.read 1 = some l ∧ s.exp = 2 + l.toNat
  /-- The frame buffer's list is in canonical form. -/
  buf_wf : s.buf.wf
  /-- The frame buffer holds nothing outside `0 ≤ i < BUF_CAP` (20_memory.md R36). -/
  buf_range : ∀ c ∈ s.buf, c.1 < s.params.bufCap
  /-- The bytes of the current frame have been written (10_state.md R25, R27). -/
  buf_written : ∀ i, i < s.pos → (s.buf.read i).isSome = true
  /-- `slb` fits in `CNT_W` bits (10_state.md R28). -/
  slb_le : s.slb ≤ s.params.counterMax
  /-- `slvf` fits in `CNT_W` bits (10_state.md R29). -/
  slvf_le : s.slvf ≤ s.params.counterMax
  /-- In the sync detector's GAP state the Assembler is idle (42_supervisor.md R109, R115). -/
  gap_idle : s.params.resyncLimit < s.slb → s.pos = 0
  /-- During an outage every slot is `TIMEOUT` once the operation in progress has landed its writes
  (42_supervisor.md R110, R116). -/
  outage_timeout : s.params.failsafeLimit < s.slvf → (settle s).store = Vector.replicate 16 .timeout
  /-- While unbound every register but `buf` is as after power-on reset (10_state.md R34). -/
  unbound_idle : s.bound = false →
    s.pos = 0 ∧ s.exp = s.params.bufCap ∧ s.slb = 0 ∧ s.slvf = 0 ∧
      s.store = Vector.replicate 16 .noDriver ∧ ∀ p, s.op = some p → p.writes = []
  /-- The operation in progress writes no slot twice (20_memory.md R50). -/
  writes_nodup : ∀ p, s.op = some p → (p.writes.map Prod.fst).Nodup
  /-- No response is shown before the operation in progress has given it: the model's choice of what a busy port shows
  (log 9). -/
  busy_silent : s.op ≠ none → s.evr = none

/-- A run is safe when it never stops (60_exceptions.md R126: no operation traps, halts or hangs). -/
def RunSafe (s : State) : Prop := ∀ n, ∃ t, Sys2Proof.core.run n s = .next t

/-- What a consumer may use for control: a read response whose `tag` is 00 (43_store_lifecycle.md R120). The duty is the
consumer's; the block does not enforce it. -/
def consumerMayUse (w : ReadWord) : Bool := decide (w.extractLsb' 14 2 = 0b00#2)

/-- The event response the port shows reports this frame outcome (60_exceptions.md R128). -/
def reportsEvt (s : State) (e : Evt) : Prop := ∃ r : EventResponse, s.evr = some (eventWord r) ∧ r.evt = e

/-- The state without what only the read port and the model's draws touch. -/
def eventSide (s : State) : State := { s with rdr := none, readReq := [], draws := 0 }

/-- Up to `n` steps under a resolution of the open choices, for as long as an operation is in progress. -/
def runWhileBusy (choice : Nat → Nat) : Nat → State → Host.Outcome State Fault Refusal
  | 0, s => .next s
  | n + 1, s =>
    match s.op with
    | none => .next s
    | some _ =>
      match stepWith choice s with
      | .next t => runWhileBusy choice n t
      | .fault f => .fault f
      | .refused r => .refused r

/-- `n` TICK operations one after the other. -/
def runTicks : Nat → State → Host.Outcome State Fault Refusal
  | 0, s => .next s
  | n + 1, s =>
    match exec .tick s with
    | .next t => runTicks n t
    | .fault f => .fault f
    | .refused r => .refused r

/-- Two states alike in all but buffer bytes that the current frame has not written, and its address byte
(10_state.md R27, 41_decoder.md R94). Their origins may differ, so that even unwritten bytes may hold different power-on
values (log 21). -/
def alikeButUnread (s t : State) : Prop :=
  t = { s with buf := t.buf, origin := t.origin } ∧ ∀ i, 1 ≤ i → i < s.pos → byteAt t i = byteAt s i

/-- A state in which the event port accepts a command of a bound block, its registers as the invariant says. -/
structure Ready (s : State) : Prop where
  inv : Inv s
  bound : s.bound = true
  idle : s.op = none

end Sys2Proof.Machine
end

