-- ==== Sys2Proof/Certificates/Slice0/Obligations.lean ====
section
/-! DEFINITION. The statements about the model, for the provers. -/

open Sys2Proof Sys2Proof.Machine

/-! ## Encoding -/

/-- Sample words of 30_encoding.md R62's table decode to their commands. -/
def Obligations.SampleWordsDecode : Prop :=
  decodeOn .event 0x1000#16 = .ok .init ∧ decodeOn .event 0x20C8#16 = .ok (.byte 0xC8#8) ∧
    decodeOn .event 0x3000#16 = .ok .tick ∧ decodeOn .read 0x4005#16 = .ok (.read 5#8)

/-- Decoding the word of a command, on its port, gives the command back, operand and all. -/
def Obligations.DecodeOfEncodeIsTheCommand : Prop :=
  ∀ (p : Port) (i : Instr), i.wellFormedOn p = true → decodeOn p (encode i) = .ok i

/-- A word has one meaning: what decodes to a command is that command's word, on that command's port. -/
def Obligations.DecodedWordIsTheEncoding : Prop :=
  ∀ (p : Port) (w : CommandWord) (i : Instr), decodeOn p w = .ok i → encode i = w ∧ i.port = p

/-- 30_encoding.md R62: the operation codes, the match/mask pairs, the port and the operand of each row; every other
operation code is reserved. -/
def Obligations.MatchAndMaskSelectTheRow : Prop :=
  ∀ w : CommandWord,
    (decodeOn .event w = .ok .init ↔ w &&& 0xFFFF#16 = 0x1000#16) ∧
    ((∃ b, decodeOn .event w = .ok (.byte b)) ↔ w &&& 0xFF00#16 = 0x2000#16) ∧
    (decodeOn .event w = .ok .tick ↔ w &&& 0xFFFF#16 = 0x3000#16) ∧
    ((∃ idx, decodeOn .read w = .ok (.read idx)) ↔ w &&& 0xFF00#16 = 0x4000#16) ∧
    (∀ p, fieldOPC w = 0#4 ∨ 5#4 ≤ fieldOPC w → ∃ e, decodeOn p w = .error e) ∧
    (∀ b, decodeOn .event w = .ok (.byte b) → b = fieldOPD w) ∧
    (∀ idx, decodeOn .read w = .ok (.read idx) → idx = fieldOPD w) ∧
    (∀ i, decodeOn .event w = .ok i → ∀ idx, i ≠ .read idx) ∧
    (∀ i, decodeOn .read w = .ok i → ∃ idx, i = .read idx)

/-- 30_encoding.md R63: the operand is the low byte, unsigned; INIT and TICK have none. -/
def Obligations.OperandIsTheLowByte : Prop :=
  ∀ (w : CommandWord) (b idx : Byte),
    (decodeOn .event w = .ok (.byte b) → b.toNat = w.toNat % 256) ∧
    (decodeOn .read w = .ok (.read idx) → idx.toNat = w.toNat % 256) ∧
    (decodeOn .event w = .ok .init ∨ decodeOn .event w = .ok .tick → w.toNat % 256 = 0)

/-- 30_encoding.md section 2, the list of R64: exactly these words are illegal on a port. -/
def Obligations.IllegalWordsAreTheListed : Prop :=
  ∀ (p : Port) (w : CommandWord),
    (∃ e, decodeOn p w = .error e) ↔
      fieldOPC w = 0#4 ∨ 5#4 ≤ fieldOPC w ∨ fieldRSV w ≠ 0#4 ∨
      ((fieldOPC w = 1#4 ∨ fieldOPC w = 3#4) ∧ fieldOPD w ≠ 0#8) ∨
      (p = .event ∧ fieldOPC w = 4#4) ∨
      (p = .read ∧ (fieldOPC w = 1#4 ∨ fieldOPC w = 2#4 ∨ fieldOPC w = 3#4))

/-! ## Steps -/

/-- A step runs the decoded command: with one requester waiting at the idle event port and no READ waiting, the step is
`exec` of the command its oldest word decodes to, that word taken from the requester. -/
def Obligations.StepRunsTheEventCommand : Prop :=
  ∀ (s : State) (r : Requester) (w : CommandWord) (ws : List CommandWord) (i : Instr),
    s.op = none → s.readReq = [] → waiting r s = w :: ws → (∀ q, q ≠ r → waiting q s = []) →
    decodeOn .event w = .ok i → step s = exec i (setWaiting r ws s)

/-- A step runs the decoded READ: with nothing else to do, the step is `exec` of the READ the consumer's oldest word
decodes to, that word taken from the consumer. -/
def Obligations.StepRunsTheRead : Prop :=
  ∀ (s : State) (w : CommandWord) (ws : List CommandWord) (i : Instr),
    s.op = none → (∀ q, waiting q s = []) → s.readReq = w :: ws →
    decodeOn .read w = .ok i → step s = exec i { s with readReq := ws }

/-- 43_store_lifecycle.md R125: a word that matches no row for its port changes no register and gets the ILLEGAL response:
`evr = 0xC0000000 | ((BUF_CAP − pos) << 16)`, `rdr = 0xE000`. As a step when it alone waits; then as the action that accepts
it, whatever else waits, its response following (`settle`) when a READ waits. -/
def Obligations.IllegalWordOnlyGetsItsResponse : Prop :=
  (∀ (s : State) (r : Requester) (w : CommandWord) (ws : List CommandWord), Inv s →
    s.op = none → s.readReq = [] → waiting r s = w :: ws → (∀ q, q ≠ r → waiting q s = []) →
    w &&& 0xFFFF#16 ≠ 0x1000#16 → w &&& 0xFF00#16 ≠ 0x2000#16 → w &&& 0xFFFF#16 ≠ 0x3000#16 →
    step s = .next { setWaiting r ws s with
      evr := some (0xC0000000#32 ||| (BitVec.ofNat 32 (s.params.bufCap - s.pos) <<< 16)) }) ∧
  (∀ (s : State) (w : CommandWord) (ws : List CommandWord),
    s.op = none → (∀ q, waiting q s = []) → s.readReq = w :: ws → w &&& 0xFF00#16 ≠ 0x4000#16 →
    step s = .next { s with readReq := ws, rdr := some 0xE000#16 }) ∧
  (∀ (s : State) (r : Requester) (w : CommandWord) (ws : List CommandWord), Inv s →
    s.op = none → waiting r s = w :: ws →
    w &&& 0xFFFF#16 ≠ 0x1000#16 → w &&& 0xFF00#16 ≠ 0x2000#16 → w &&& 0xFFFF#16 ≠ 0x3000#16 →
    ∃ t, perform (.accept r) s = .next t ∧ settle t = { setWaiting r ws s with
      evr := some (0xC0000000#32 ||| (BitVec.ofNat 32 (s.params.bufCap - s.pos) <<< 16)) }) ∧
  (∀ (s : State) (w : CommandWord) (ws : List CommandWord),
    s.readReq = w :: ws → w &&& 0xFF00#16 ≠ 0x4000#16 →
    perform .serveRead s = .next { s with readReq := ws, rdr := some 0xE000#16 })

/-- With no request waiting and no operation in progress, a step changes nothing (70_reset_and_hazards.md section 3,
60_exceptions.md section 7). -/
def Obligations.IdleBlockKeepsItsState : Prop :=
  ∀ s : State, s.op = none → (∀ q, waiting q s = []) → s.readReq = [] → step s = .next s

/-- 60_exceptions.md R131: with requests of several agents waiting, each may be served first, and one of them or a waiting
READ is; the order is observable, as in the rule's example of a BYTE and a TICK. -/
def Obligations.WaitingRequestsAreServedInAnyOrder : Prop :=
  (∀ (s : State) (q r : Requester), q ≠ r → s.op = none → waiting q s ≠ [] → waiting r s ≠ [] →
    (∃ choice, stepWith choice s = perform (.accept q) { s with draws := s.draws + 1 }) ∧
    (∃ choice, stepWith choice s = perform (.accept r) { s with draws := s.draws + 1 }) ∧
    (∀ choice,
      (∃ x, waiting x s ≠ [] ∧ stepWith choice s = perform (.accept x) { s with draws := s.draws + 1 }) ∨
      (s.readReq ≠ [] ∧ stepWith choice s = perform .serveRead { s with draws := s.draws + 1 }))) ∧
  (∀ (s : State) (b : Byte), Ready s → s.params.resyncLimit = 3 → s.slb = 3 → s.pos = 5 → 6 < s.exp →
    (∃ t u, exec .tick s = .next t ∧ t.slb = 4 ∧ t.pos = 0 ∧ exec (.byte b) t = .next u ∧ u.pos = 1) ∧
    (∃ t u, exec (.byte b) s = .next t ∧ t.pos = 6 ∧ t.slb = 0 ∧ byteAt t 5 = b ∧
      exec .tick t = .next u ∧ u.slb = 1 ∧ u.pos = 6 ∧ u.exp = s.exp ∧ u.buf = t.buf))

/-- 20_memory.md section 5: when a READ waits too, an accepted event command is opened and left in progress, or the READ
is served first; both happen. -/
def Obligations.CommandOpensBesideAWaitingRead : Prop :=
  ∀ (s : State) (r : Requester) (w : CommandWord) (ws : List CommandWord) (i : Instr),
    s.op = none → s.readReq ≠ [] → waiting r s = w :: ws → (∀ q, q ≠ r → waiting q s = []) →
    decodeOn .event w = .ok i →
    (∀ choice,
      stepWith choice s = openOp (beginInstr i) (setWaiting r ws { s with draws := s.draws + 1 }) ∨
      stepWith choice s = perform .serveRead { s with draws := s.draws + 1 }) ∧
    (∃ choice, stepWith choice s = openOp (beginInstr i) (setWaiting r ws { s with draws := s.draws + 1 })) ∧
    (∃ choice, stepWith choice s = perform .serveRead { s with draws := s.draws + 1 })

/-- 20_memory.md R50: a channel frame, a failsafe tick and INIT write each of the sixteen slots, every other event command
none. The slot writes of an operation in progress land one at a time and in an order left open: any remaining one may land
next, and a step that serves no READ lands one of them. -/
def Obligations.SlotWritesLandInAnyOrder : Prop :=
  (∀ (i : Instr) (s t : State), i.port = .event → s.op = none → openOp (beginInstr i) s = .next t →
    ∃ (p : Pending) (r : EventResponse), t.op = some p ∧ p.resp = eventWord r ∧ t.store = s.store ∧
      if i = .init ∨ r.evt = .channels ∨ r.failsafe = true then p.writes.map Prod.fst = List.finRange 16
      else p.writes = []) ∧
  (∀ (s : State) (p : Pending), s.op = some p → p.writes ≠ [] →
    (∀ k, k < p.writes.length → ∃ choice t, stepWith choice s = .next t ∧
      t.op = some { p with writes := p.writes.eraseIdx k } ∧
      ∃ w, p.writes[k]? = some w ∧ t.store = s.store.set w.1 w.2) ∧
    (∀ choice t, stepWith choice s = .next t → t.readReq = s.readReq →
      ∃ k w, p.writes[k]? = some w ∧ t.op = some { p with writes := p.writes.eraseIdx k } ∧
        t.store = s.store.set w.1 w.2))

/-- 20_memory.md sections 5 and 6: an operation opened beside waiting READs ends, however its slot writes and the READs
interleave, as the whole operation does, after at most one step for each slot write and each READ and one for the
response. -/
def Obligations.EveryInterleavingEndsAsTheWholeOperation : Prop :=
  ∀ (choice : Nat → Nat) (i : Instr) (s t : State), i.port = .event → s.op = none →
    openOp (beginInstr i) s = .next t →
    exec i s = .next (settle t) ∧
    (∀ n u, runWhileBusy choice n t = .next u → eventSide (settle u) = eventSide (settle t)) ∧
    (∀ p, t.op = some p → ∃ u, runWhileBusy choice (p.writes.length + t.readReq.length + 1) t = .next u ∧
      u.op = none ∧ eventSide u = eventSide (settle t))

/-- 20_memory.md R44: at every point of an operation in progress each slot holds, whole, what it held before the
operation's write to it or what that write puts there, and a READ returns that. -/
def Obligations.TornReadsSeeOldOrNewSlots : Prop :=
  ∀ (choice : Nat → Nat) (s u : State) (p : Pending) (n : Nat), s.op = some p →
    (p.writes.map Prod.fst).Nodup → runWhileBusy choice n s = .next u →
    ∀ i : Fin 16, (u.store[i] = s.store[i] ∨ u.store[i] = (settle s).store[i]) ∧
      exec (.read (BitVec.ofNat 8 i)) u = .next { u with rdr := some (readWord (.slot u.store[i])) }

/-- 20_memory.md section 5: while an operation is in progress the event port accepts nothing, and the next response it gives
is the operation's own. That the port shows no response until then (`evr` is none) is the model's choice (log 9). -/
def Obligations.BusyPortAcceptsNothing : Prop :=
  ∀ (choice : Nat → Nat) (s t : State) (p : Pending), s.op = some p → s.evr = none →
    stepWith choice s = .next t →
    (∀ r, waiting r t = waiting r s) ∧
    ((∃ q, t.op = some q ∧ q.resp = p.resp ∧ t.evr = none) ∨
      (p.writes = [] ∧ t.op = none ∧ t.evr = some p.resp))

/-! ## INIT -/

/-- 43_store_lifecycle.md R122 (and R123: it never fails). -/
def Obligations.InitBindsAndInitialises : Prop :=
  ∀ s : State, s.op = none →
    exec .init s = .next { s with
      bound := true, pos := 0, exp := s.params.bufCap, slb := 0, slvf := 0,
      store := Vector.replicate 16 .noDriver,
      evr := some (eventWord { status := .ok, headroom := s.params.bufCap }) }

/-! ## BYTE -/

/-- 40_assembler.md R83 and 42_supervisor.md R108: before INIT a BYTE and a TICK change nothing and answer UNBOUND with
`headroom = BUF_CAP`. -/
def Obligations.BeforeInitByteAndTickAreUnbound : Prop :=
  ∀ s : State, Inv s → s.bound = false → s.op = none →
    (∀ b, exec (.byte b) s = .next { s with
      evr := some (eventWord { status := .unbound, headroom := s.params.bufCap, consumed := false }) }) ∧
    exec .tick s = .next { s with
      evr := some (eventWord { status := .unbound, headroom := s.params.bufCap }) }

/-- 40_assembler.md R76: every BYTE appends its byte and clears `slb`; `pos` moves on by one unless the BYTE resets the
Assembler. A byte that is no length byte and completes no frame changes nothing else but the response. -/
def Obligations.ByteIsAppended : Prop :=
  (∀ (s : State) (b : Byte), Ready s →
    ∃ t, exec (.byte b) s = .next t ∧ t.slb = 0 ∧ t.buf = s.buf.write s.pos b ∧
      (t.pos = s.pos + 1 ∨ (t.pos = 0 ∧ t.exp = s.params.bufCap))) ∧
  (∀ (s : State) (b : Byte), Ready s → s.pos ≠ 1 → s.pos + 1 ≠ s.exp →
    exec (.byte b) s = .next { s with
      slb := 0, buf := s.buf.write s.pos b, pos := s.pos + 1,
      evr := some (eventWord
        { status := .ok, headroom := s.params.bufCap - (s.pos + 1), evt := .none, consumed := true }) })

/-- 40_assembler.md R77, R78 and the corner cases of R82: the byte at `pos = 1` is the length byte. Oversized, it abandons
the attempt; zero, it completes a SHORT frame; else it sets `exp`. -/
def Obligations.LengthByteBoundsTheFrame : Prop :=
  ∀ (s : State) (b : Byte), Ready s → s.pos = 1 →
    exec (.byte b) s =
      if 2 + b.toNat > s.params.bufCap then
        .next { s with
          slb := 0, buf := s.buf.write 1 b, pos := 0, exp := s.params.bufCap,
          evr := some (eventWord
            { status := .ok, headroom := s.params.bufCap, evt := .oversize, consumed := true }) }
      else if b = 0#8 then
        .next { s with
          slb := 0, buf := s.buf.write 1 b, pos := 0, exp := s.params.bufCap,
          evr := some (eventWord
            { status := .ok, headroom := s.params.bufCap, evt := .short, consumed := true }) }
      else
        .next { s with
          slb := 0, buf := s.buf.write 1 b, pos := 2, exp := 2 + b.toNat,
          evr := some (eventWord
            { status := .ok, headroom := s.params.bufCap - 2, evt := .none, consumed := true }) }

/-- 41_decoder.md R95: a frame of length byte 0 or 1 completes as SHORT with no other effect of the Decoder. -/
def Obligations.ShortFrameIsDiscarded : Prop :=
  (∀ s : State, Ready s → s.pos = 1 →
    exec (.byte 0#8) s = .next { s with
      slb := 0, buf := s.buf.write 1 0#8, pos := 0, exp := s.params.bufCap,
      evr := some (eventWord
        { status := .ok, headroom := s.params.bufCap, evt := .short, consumed := true }) }) ∧
  (∀ (s : State) (b : Byte), Ready s → s.pos = 2 → s.exp = 3 →
    exec (.byte b) s = .next { s with
      slb := 0, buf := s.buf.write 2 b, pos := 0, exp := s.params.bufCap,
      evr := some (eventWord
        { status := .ok, headroom := s.params.bufCap, evt := .short, consumed := true }) })

/-- 41_decoder.md R96: on a CRC mismatch the frame is discarded; the store is untouched and `slvf` is not reset. -/
def Obligations.CrcMismatchIsDiscarded : Prop :=
  ∀ (s : State) (b : Byte), Ready s → 4 ≤ s.exp → s.pos + 1 = s.exp →
    crc8 s.params.crcPoly 0#8 ((List.range' 2 (s.exp - 3)).map (byteAt s)) ≠ b →
    exec (.byte b) s = .next { s with
      slb := 0, buf := s.buf.write s.pos b, pos := 0, exp := s.params.bufCap,
      evr := some (eventWord
        { status := .ok, headroom := s.params.bufCap, evt := .crc, consumed := true }) }

/-- 41_decoder.md R102: a valid frame that is not a channel frame clears `slvf` and leaves the store. -/
def Obligations.OtherFrameClearsOnlySlvf : Prop :=
  ∀ (s : State) (b : Byte), Ready s → 4 ≤ s.exp → s.pos + 1 = s.exp →
    crc8 s.params.crcPoly 0#8 ((List.range' 2 (s.exp - 3)).map (byteAt s)) = b →
    ¬(byteAt s 2 = 0x16#8 ∧ s.exp = 26) →
    exec (.byte b) s = .next { s with
      slb := 0, buf := s.buf.write s.pos b, pos := 0, exp := s.params.bufCap, slvf := 0,
      evr := some (eventWord
        { status := .ok, headroom := s.params.bufCap, evt := .other, consumed := true }) }

/-- 41_decoder.md R101 with R98 and R100: a channel frame overwrites all sixteen slots, whatever they held, and clears
`slvf`. -/
def Obligations.ChannelFrameWritesEverySlot : Prop :=
  ∀ (s : State) (b : Byte), Ready s → s.pos = 25 → s.exp = 26 → byteAt s 2 = 0x16#8 →
    crc8 s.params.crcPoly 0#8 ((List.range' 2 23).map (byteAt s)) = b →
    exec (.byte b) s = .next { s with
      slb := 0, buf := s.buf.write 25 b, pos := 0, exp := s.params.bufCap, slvf := 0,
      store := Vector.ofFn fun i => .value (unpack ((List.range' 3 22).map (byteAt s)) i),
      evr := some (eventWord
        { status := .ok, headroom := s.params.bufCap, evt := .channels, consumed := true }) }

/-- 40_assembler.md R81: the Assembler's states, their transitions on BYTE, TICK and INIT, and what a BYTE reports. -/
def Obligations.AssemblerFollowsItsTable : Prop :=
  ∀ s : State, Ready s →
    (∀ b, ∃ t, exec (.byte b) s = .next t ∧ byteAt t s.pos = b ∧
      match asmState s with
      | .addr => asmState t = .len ∧ reportsEvt t .none
      | .len =>
        if 2 + b.toNat > s.params.bufCap then asmState t = .addr ∧ reportsEvt t .oversize
        else if b = 0#8 then asmState t = .addr ∧ reportsEvt t .short
        else asmState t = .body 2 (2 + b.toNat) ∧ reportsEvt t .none
      | .body n e =>
        if n + 1 = e then asmState t = .addr ∧ ∃ o, o ≠ .none ∧ o ≠ .oversize ∧ reportsEvt t o
        else asmState t = .body (n + 1) e ∧ reportsEvt t .none) ∧
    (∃ t, exec .tick s = .next t ∧
      if satInc s.params s.slb > s.params.resyncLimit then asmState t = .addr else asmState t = asmState s) ∧
    (∃ t, exec .init s = .next t ∧ asmState t = .addr)

/-! ## TICK -/

/-- 42_supervisor.md R107: the whole operation, unbound and bound. -/
def Obligations.TickRunsBothChecks : Prop :=
  ∀ s : State, s.op = none →
    exec .tick s =
      if s.bound = false then
        .next { s with evr := some (eventWord { status := .unbound, headroom := s.params.bufCap - s.pos }) }
      else
        .next { s with
          slb := satInc s.params s.slb,
          slvf := satInc s.params s.slvf,
          pos := if satInc s.params s.slb > s.params.resyncLimit then 0 else s.pos,
          exp := if satInc s.params s.slb > s.params.resyncLimit then s.params.bufCap else s.exp,
          store :=
            if satInc s.params s.slvf > s.params.failsafeLimit then Vector.replicate 16 .timeout else s.store,
          evr := some (eventWord
            { status := .ok,
              headroom :=
                if satInc s.params s.slb > s.params.resyncLimit then s.params.bufCap
                else s.params.bufCap - s.pos,
              resync := decide (satInc s.params s.slb > s.params.resyncLimit),
              failsafe := decide (satInc s.params s.slvf > s.params.failsafeLimit) }) }

/-- 42_supervisor.md R113: the Supervisor never clears a counter, whether or not its checks fire. -/
def Obligations.SupervisorNeverClearsACounter : Prop :=
  ∀ s t : State, exec .tick s = .next t → s.slb ≤ t.slb ∧ s.slvf ≤ t.slvf

/-- 42_supervisor.md R114: the counters saturate at `2^CNT_W − 1`, and a timeout condition that holds stays true on every
tick. -/
def Obligations.TimeoutsStayFiredUnderTicks : Prop :=
  ∀ s : State, Ready s → ∃ t, exec .tick s = .next t ∧
    (t.slb = if s.slb = 2 ^ s.params.cntW - 1 then s.slb else s.slb + 1) ∧
    (t.slvf = if s.slvf = 2 ^ s.params.cntW - 1 then s.slvf else s.slvf + 1) ∧
    (s.params.resyncLimit < s.slb → t.params.resyncLimit < t.slb) ∧
    (s.params.failsafeLimit < s.slvf → t.params.failsafeLimit < t.slvf)

/-- 42_supervisor.md R111: the checks fire on the tick that makes the counter `LIMIT + 1`. After `N ≤ FAILSAFE_LIMIT` ticks
with no valid frame the channels keep their values, after `N ≥ FAILSAFE_LIMIT + 1` they read `TIMEOUT`; the resync check
likewise keeps or drops the partial frame. -/
def Obligations.TimeoutsFireOnTheTickAfterTheLimit : Prop :=
  ∀ (s : State) (n : Nat), Ready s → ∃ t, runTicks n s = .next t ∧
    (s.slvf = 0 →
      (n ≤ s.params.failsafeLimit → t.store = s.store) ∧
      (s.params.failsafeLimit + 1 ≤ n → t.store = Vector.replicate 16 .timeout)) ∧
    (s.slb = 0 →
      (n ≤ s.params.resyncLimit → t.pos = s.pos ∧ t.exp = s.exp) ∧
      (s.params.resyncLimit + 1 ≤ n → t.pos = 0 ∧ t.exp = s.params.bufCap))

/-- 42_supervisor.md R115: the sync detector as a state machine. -/
def Obligations.SyncDetectorFollowsItsTable : Prop :=
  ∀ s : State, Ready s →
    (∀ b, ∃ t, exec (.byte b) s = .next t ∧ t.slb = 0 ∧ syncState t = .receiving ∧
      (syncState s = .gap → t.pos = 1 ∧ byteAt t 0 = b)) ∧
    (∃ t, exec .tick s = .next t ∧ t.slb = satInc s.params s.slb ∧
      match syncState s with
      | .receiving =>
        t.slb = s.slb + 1 ∧
          if t.slb > s.params.resyncLimit then
            syncState t = .gap ∧ t.pos = 0 ∧ t.exp = s.params.bufCap
          else syncState t = .receiving ∧ t.pos = s.pos ∧ t.exp = s.exp
      | .gap => syncState t = .gap ∧ t.pos = 0 ∧ t.exp = s.params.bufCap)

/-- 42_supervisor.md R116: the link-loss supervisor as a state machine. A BYTE changes it only by completing a valid frame,
which makes it ALIVE; a TICK counts, and writes `TIMEOUT` to every slot when the limit is passed. -/
def Obligations.LinkLossFollowsItsTable : Prop :=
  ∀ s : State, Ready s →
    (∀ b, ∃ t, exec (.byte b) s = .next t ∧
      ((t.slvf = 0 ∧ linkState t = .alive ∧
          (((∀ i : Fin 16, ∃ v, t.store[i] = .value v) ∧ t.evr = some (eventWord
              { status := .ok, headroom := s.params.bufCap, evt := .channels, consumed := true })) ∨
            (t.store = s.store ∧ t.evr = some (eventWord
              { status := .ok, headroom := s.params.bufCap, evt := .other, consumed := true })))) ∨
        (t.slvf = s.slvf ∧ linkState t = linkState s ∧ t.store = s.store ∧
          ∃ e, e ≠ .channels ∧ e ≠ .other ∧ t.evr = some (eventWord
            { status := .ok, headroom := s.params.bufCap - t.pos, evt := e, consumed := true })))) ∧
    (∃ t, exec .tick s = .next t ∧ t.slvf = satInc s.params s.slvf ∧
      match linkState s with
      | .alive =>
        t.slvf = s.slvf + 1 ∧
          if t.slvf > s.params.failsafeLimit then
            linkState t = .lost ∧ t.store = Vector.replicate 16 .timeout
          else linkState t = .alive ∧ t.store = s.store
      | .lost => linkState t = .lost ∧ t.store = Vector.replicate 16 .timeout)

/-! ## READ -/

/-- 43_store_lifecycle.md R119: indices 0 to 15 return the slot, 16 to 255 `InvalidIndex`; nothing else changes. -/
def Obligations.ReadReturnsTheSlotOrInvalidIndex : Prop :=
  ∀ s : State,
    (∀ i : Fin 16, exec (.read (BitVec.ofNat 8 i)) s =
      .next { s with rdr := some (((slotTag s.store[i]).setWidth 16 <<< 14) |||
        (slotVal s.store[i]).setWidth 16) }) ∧
    (∀ idx : Byte, 16 ≤ idx.toNat → exec (.read idx) s = .next { s with rdr := some 0xC000#16 })

/-- 20_memory.md R45: a READ has no side effect, is idempotent, and two READs of a slot that has not been written between
them answer alike. -/
def Obligations.ReadIsIdempotent : Prop :=
  ∀ (s t : State) (idx : Byte), exec (.read idx) s = .next t →
    { t with rdr := s.rdr } = s ∧ exec (.read idx) t = .next t ∧
    ∀ u v : State, (∀ i : Fin 16, i.val = idx.toNat → u.store[i] = s.store[i]) →
      exec (.read idx) u = .next v → v.rdr = t.rdr

/-! ## Responses -/

/-- 30_encoding.md section 3 and 60_exceptions.md section 2, the layout of `evr` and its codes: each field of a response in
its bits, 0 elsewhere; the codes of `status` and of `evt`. -/
def Obligations.EventWordHasTheLayout : Prop :=
  (statusCode .ok = 0b00#2 ∧ statusCode .unbound = 0b01#2 ∧ statusCode .illegal = 0b11#2) ∧
  (evtCode .none = 0#4 ∧ evtCode .channels = 1#4 ∧ evtCode .other = 2#4 ∧ evtCode .crc = 3#4 ∧
    evtCode .short = 4#4 ∧ evtCode .oversize = 5#4) ∧
  ∀ r : EventResponse, r.headroom < 512 →
    (eventWord r).extractLsb' 30 2 = statusCode r.status ∧
    (eventWord r).extractLsb' 25 5 = 0#5 ∧
    ((eventWord r).extractLsb' 16 9).toNat = r.headroom ∧
    (eventWord r).extractLsb' 12 4 = 0#4 ∧
    (eventWord r).extractLsb' 8 4 = evtCode r.evt ∧
    (eventWord r).extractLsb' 4 4 = 0#4 ∧
    (eventWord r).getLsbD 3 = r.failsafe ∧
    (eventWord r).getLsbD 2 = r.resync ∧
    (eventWord r).getLsbD 1 = false ∧
    (eventWord r).getLsbD 0 = r.consumed

/-- 30_encoding.md R66: the layout of `rdr`. -/
def Obligations.ReadWordHasTheLayout : Prop :=
  (∀ v : Slot, readWord (.slot v) = ((slotTag v).setWidth 16 <<< 14) ||| (slotVal v).setWidth 16) ∧
  (∀ v : Slot, (readWord (.slot v)).extractLsb' 11 3 = 0#3) ∧
  (∀ c : Channel, slotTag (.value c) = 0b00#2 ∧ slotVal (.value c) = c) ∧
  slotTag .noDriver = 0b01#2 ∧ slotVal .noDriver = 0#11 ∧
  slotTag .timeout = 0b10#2 ∧ slotVal .timeout = 0#11 ∧
  readWord .invalidIndex = 0xC000#16 ∧ readWord .illegal = 0xE000#16

/-- 40_assembler.md R86 and 60_exceptions.md section 2: an event command accepted by the idle port answers with `headroom`
the room left after it, all of `BUF_CAP` when it completed or abandoned a frame; `evt` and `consumed` are a bound BYTE's
alone, `resync` and `failsafe` a TICK's. -/
def Obligations.EventResponseSaysWhatHappened : Prop :=
  ∀ (i : Instr) (s t : State), i.port = .event → s.op = none → exec i s = .next t →
    ∃ r : EventResponse, t.evr = some (eventWord r) ∧
      r.headroom = s.params.bufCap - t.pos ∧
      (r.evt ≠ .none → r.headroom = s.params.bufCap) ∧
      (r.status = if i = .init ∨ s.bound = true then .ok else .unbound) ∧
      (r.consumed = true ↔ (∃ b, i = .byte b) ∧ s.bound = true) ∧
      (r.evt ≠ .none → (∃ b, i = .byte b) ∧ s.bound = true) ∧
      (r.resync = true ∨ r.failsafe = true → i = .tick ∧ s.bound = true)

/-! ## Frames -/

/-- An event command given while another operation is in progress is held: nothing changes (20_memory.md section 5,
70_reset_and_hazards.md section 3; log 8). -/
def Obligations.EventCommandWaitsWhileBusy : Prop :=
  ∀ (i : Instr) (s : State), i.port = .event → s.op ≠ none → exec i s = .next s

/-- No command changes the parameters, what waits at the ports, the draws or the origin; an event command leaves the read
port's response; a READ leaves everything but it. -/
def Obligations.CommandsLeaveThePortsAlone : Prop :=
  ∀ (i : Instr) (s t : State), exec i s = .next t →
    t.params = s.params ∧ t.hostReq = s.hostReq ∧ t.byteReq = s.byteReq ∧ t.tickReq = s.tickReq ∧
    t.readReq = s.readReq ∧ t.draws = s.draws ∧ t.origin = s.origin ∧
    (i.port = .event → t.rdr = s.rdr) ∧
    (i.port = .read → t = { s with rdr := t.rdr })

/-- BYTE stores at index `pos` of the frame buffer, and nothing else stores there: every other byte reads as before; a BYTE
that is unbound or held, an INIT, a TICK and a READ leave every byte. -/
def Obligations.BufferIsWrittenOnlyByByteAtPosition : Prop :=
  (∀ (b : Byte) (s t : State), exec (.byte b) s = .next t →
    (∀ a, a ≠ s.pos → byteAt t a = byteAt s a) ∧
    (s.bound = true → s.op = none → byteAt t s.pos = b) ∧
    (s.bound = false ∨ s.op ≠ none → ∀ a, byteAt t a = byteAt s a)) ∧
  (∀ (i : Instr) (s t : State), (i = .init ∨ i = .tick ∨ ∃ idx, i = .read idx) → exec i s = .next t →
    t.buf = s.buf ∧ ∀ a, byteAt t a = byteAt s a)

/-- Registers a command does not write: `bound` but for INIT; the store and `slvf` for a BYTE that reports no valid frame;
every register for a READ. -/
def Obligations.CommandsLeaveOtherRegistersAlone : Prop :=
  ∀ (i : Instr) (s t : State), exec i s = .next t →
    (i ≠ .init → t.bound = s.bound) ∧
    (∀ idx, i = .read idx → t.pos = s.pos ∧ t.exp = s.exp ∧ t.slb = s.slb ∧ t.slvf = s.slvf ∧
      t.store = s.store ∧ t.op = s.op ∧ t.evr = s.evr) ∧
    (∀ b, i = .byte b → s.op = none → s.bound = true → t.slb = 0 ∧
      ((t.slvf = s.slvf ∧ t.store = s.store) ∨
       (t.slvf = 0 ∧ ∃ r : EventResponse, t.evr = some (eventWord r) ∧
          (r.evt = .channels ∨ (r.evt = .other ∧ t.store = s.store)))))

/-- 43_store_lifecycle.md R121: only a channel frame's decode, a failsafe tick and INIT write the store. -/
def Obligations.StoreHasThreeWriters : Prop :=
  ∀ (i : Instr) (s t : State), exec i s = .next t → t.store ≠ s.store →
    i = .init ∨
    (∃ b r, i = .byte b ∧ t.evr = some (eventWord r) ∧ r.evt = .channels) ∨
    (i = .tick ∧ ∃ r : EventResponse, t.evr = some (eventWord r) ∧ r.failsafe = true)

/-- 10_state.md R34: while unbound the registers but `buf` are the power-on ones, and no step changes any register but one
that accepts a word that decodes to INIT; what that step leads to is what INIT does. -/
def Obligations.UnboundBlockKeepsItsPowerOnState : Prop :=
  ∀ (choice : Nat → Nat) (s t : State), Inv s → s.bound = false → stepWith choice s = .next t →
    (s.pos = 0 ∧ s.exp = s.params.bufCap ∧ s.slb = 0 ∧ s.slvf = 0 ∧
      s.store = Vector.replicate 16 .noDriver) ∧
    ((t.bound = true ∧ s.op = none ∧ ∃ r w ws d, waiting r s = w :: ws ∧ decodeOn .event w = .ok .init ∧
        exec .init (setWaiting r ws { s with draws := d }) = .next (settle t)) ∨
      (t.bound = false ∧ t.pos = s.pos ∧ t.exp = s.exp ∧ t.slb = s.slb ∧ t.slvf = s.slvf ∧
        t.store = s.store ∧ t.buf = s.buf))

/-! ## CRC-8 and the channel bit fields -/

/-- 41_decoder.md R91: the properties of `crc8`. -/
def Obligations.CrcComposesAndHasTheTabledValues : Prop :=
  (∀ (poly s : Byte), crc8 poly s [] = s) ∧
  (∀ (poly : Byte) (n : Nat), crc8 poly 0#8 (List.replicate n 0#8) = 0#8) ∧
  (∀ (poly s : Byte) (a b : List Byte), crc8 poly s (a ++ b) = crc8 poly (crc8 poly s a) b) ∧
  crc8 0xD5#8 0#8 [0x01#8] = 0xD5#8 ∧ crc8 0xD5#8 0#8 [0x16#8] = 0xD3#8 ∧
  crc8 0xD5#8 0#8 [0x31#8, 0x32#8, 0x33#8, 0x34#8, 0x35#8, 0x36#8, 0x37#8, 0x38#8, 0x39#8] = 0xBC#8

/-- 41_decoder.md section 2, the last rule: with a polynomial whose constant term is nonzero, every change confined to one
byte changes the CRC. -/
def Obligations.CrcDetectsAnyOneByteChange : Prop :=
  ∀ (poly seed x y : Byte) (a b : List Byte), poly.getLsbD 0 = true → x ≠ y →
    crc8 poly seed (a ++ x :: b) ≠ crc8 poly seed (a ++ y :: b)

/-- 41_decoder.md section 2, the last rule, on the block: with such a polynomial, a channel frame with one payload byte
changed and the CRC byte not recomputed is reported CRC and leaves the store and `slvf`. -/
def Obligations.CorruptedChannelFrameLeavesTheStore : Prop :=
  ∀ (s : State) (a c : List Byte) (x y : Byte), Ready s → s.params.crcPoly.getLsbD 0 = true →
    s.pos = 25 → s.exp = 26 → byteAt s 2 = 0x16#8 →
    (List.range' 3 22).map (byteAt s) = a ++ y :: c → x ≠ y →
    ∃ t, exec (.byte (crc8 s.params.crcPoly 0#8 (0x16#8 :: (a ++ x :: c)))) s = .next t ∧
      t.store = s.store ∧ t.slvf = s.slvf ∧
      t.evr = some (eventWord
        { status := .ok, headroom := s.params.bufCap, evt := .crc, consumed := true })

/-- 20_memory.md R40: channel `i` is bits `[11i+10 : 11i]` of the payload read as one little-endian integer. -/
def Obligations.ChannelIsItsPayloadBits : Prop :=
  ∀ (p : List Byte) (i : Nat), p.length = 22 → i < 16 →
    (unpack p i).toNat = payloadNumber p / 2 ^ (11 * i) % 2 ^ 11

/-- 30_encoding.md R74: the packing makes 22 bytes whose unpacking returns the sixteen values. -/
def Obligations.UnpackInvertsPack : Prop :=
  ∀ cs : List Channel, cs.length = 16 →
    (packChannels cs).length = 22 ∧
    (∀ j (h : j < (packChannels cs).length), ((packChannels cs)[j]).toNat = channelsNumber cs / 2 ^ (8 * j) % 256) ∧
    ∀ i (h : i < cs.length), unpack (packChannels cs) i = cs[i]

/-- 30_encoding.md section 5: the shift table, channel by channel, and its period of eight channels. -/
def Obligations.ShiftTableIsTheTabled : Prop :=
  (List.range 16).map (fun i => (channelByte i, channelShift i)) =
    [(0, 0), (1, 3), (2, 6), (4, 1), (5, 4), (6, 7), (8, 2), (9, 5),
     (11, 0), (12, 3), (13, 6), (15, 1), (16, 4), (17, 7), (19, 2), (20, 5)] ∧
  ∀ i, channelByte (i + 8) = channelByte i + 11 ∧ channelShift (i + 8) = channelShift i

/-- 41_decoder.md R105: for any sixteen values, the last byte of the channel frame whose payload is their packing puts
exactly those values in the store, for every legal parameter and whatever the store held. -/
def Obligations.ChannelFrameRoundTrip : Prop :=
  ∀ (s : State) (cs : List Channel), Ready s → cs.length = 16 → s.pos = 25 → s.exp = 26 →
    byteAt s 2 = 0x16#8 → (List.range' 3 22).map (byteAt s) = packChannels cs →
    ∃ t, exec (.byte (frameCrc s.params.crcPoly 0x16#8 (packChannels cs))) s = .next t ∧
      (∀ (i : Fin 16) (h : i.val < cs.length), t.store[i] = .value cs[i.val]) ∧
      t.slvf = 0 ∧ t.pos = 0 ∧ t.exp = s.params.bufCap ∧
      t.evr = some (eventWord
        { status := .ok, headroom := s.params.bufCap, evt := .channels, consumed := true })

/-- 30_encoding.md section 4: a channel-data frame has length byte 24 and 26 bytes, type at offset 2, the 22 payload
bytes from offset 3, its CRC last. -/
def Obligations.ChannelFrameHasTheWireLayout : Prop :=
  ∀ (poly a : Byte) (cs : List Channel),
    (frameBytes poly a 0x16#8 (packChannels cs)).length = 26 ∧
    (frameBytes poly a 0x16#8 (packChannels cs))[0]? = some a ∧
    (frameBytes poly a 0x16#8 (packChannels cs))[1]? = some 24#8 ∧
    (frameBytes poly a 0x16#8 (packChannels cs))[2]? = some 0x16#8 ∧
    (packChannels cs).length = 22 ∧
    (∀ j, j < 22 → (frameBytes poly a 0x16#8 (packChannels cs))[3 + j]? = (packChannels cs)[j]?) ∧
    (frameBytes poly a 0x16#8 (packChannels cs))[25]? =
      some (crc8 poly 0#8 (0x16#8 :: packChannels cs))

/-! ## The machine as a whole -/

/-- 70_reset_and_hazards.md R141: power-on reset, for any parameters; the buffer's contents are unspecified, so nothing is
said of them. The machine's reset is that of the default parameters (00_scope.md R8). -/
def Obligations.PowerOnResetLeaves : Prop :=
  (∀ (p : Params) (o : Nat),
    (State.powerOn p o).bound = false ∧ (State.powerOn p o).pos = 0 ∧ (State.powerOn p o).exp = p.bufCap ∧
    (State.powerOn p o).slb = 0 ∧ (State.powerOn p o).slvf = 0 ∧
    (∀ i : Fin 16, (State.powerOn p o).store[i] = .noDriver) ∧ (State.powerOn p o).op = none) ∧
  ∃ o, State.reset = State.powerOn
    { bufCap := 36, resyncLimit := 3, failsafeLimit := 32, cntW := 16, crcPoly := 0xD5#8 } o

/-- 70_reset_and_hazards.md R142: before INIT, READ returns `NO_DRIVER` or `InvalidIndex`, BYTE and TICK return UNBOUND and
change nothing. -/
def Obligations.BeforeInitOnlyReadsAnswer : Prop :=
  ∀ s : State, Inv s → s.bound = false → s.op = none →
    (∀ i : Fin 16, exec (.read (BitVec.ofNat 8 i)) s = .next { s with rdr := some 0x4000#16 }) ∧
    (∀ idx : Byte, 16 ≤ idx.toNat → exec (.read idx) s = .next { s with rdr := some 0xC000#16 }) ∧
    (∀ i : Instr, (i = .tick ∨ ∃ b, i = .byte b) → ∃ w : EventWord,
      exec i s = .next { s with evr := some w } ∧ w.extractLsb' 30 2 = 0b01#2)

/-- The invariant holds after power-on reset, for all legal parameters; the defaults are legal. -/
def Obligations.PowerOnStateMeetsTheInvariant : Prop :=
  (∀ (p : Params) (o : Nat), p.legal = true → Inv (State.powerOn p o)) ∧ Inv State.reset

/-- Every step keeps the invariant, from every state that meets it and under every resolution of the open choices. One clause
of the invariant, that a busy event port shows no response, is the model's choice (log 9). -/
def Obligations.EveryStepKeepsTheInvariant : Prop :=
  (∀ s t : State, Inv s → step s = .next t → Inv t) ∧
  (∀ (choice : Nat → Nat) (s t : State), Inv s → stepWith choice s = .next t → Inv t)

/-- A request that arrives keeps the invariant. -/
def Obligations.ArrivingRequestsKeepTheInvariant : Prop :=
  ∀ (s : State) (w : CommandWord), Inv s →
    (∀ r, Inv (s.presentEvent r w)) ∧ Inv (s.presentRead w) ∧ (∀ nbits k, Inv (s.withFetchWord nbits k))

/-- 60_exceptions.md section 1: nothing traps, halts or hangs: from every state that meets the invariant every step answers
a next state, whatever the waiting words are and however the open choices fall, and so does every run. -/
def Obligations.NoStepEverStops : Prop :=
  (∀ (choice : Nat → Nat) (s : State), Inv s → ∃ t, stepWith choice s = .next t) ∧
  (∀ s : State, Inv s → RunSafe s)

/-- 10_state.md section 2 and 70_reset_and_hazards.md section 2: the build-time parameters never change, and once bound the
block stays bound; nor does the origin, the model's own field (log 21). -/
def Obligations.ParametersAndBindingPersist : Prop :=
  ∀ (choice : Nat → Nat) (s t : State), stepWith choice s = .next t →
    t.params = s.params ∧ t.origin = s.origin ∧ (s.bound = true → t.bound = true)

/-- 10_state.md section 3: what the frame buffer held at power-on, or holds beyond the current frame, and the address byte,
are never observed: two states alike but for them take steps alike but for them, whatever the power-on bytes of either. -/
def Obligations.UnreadBytesAreNeverObserved : Prop :=
  ∀ (choice : Nat → Nat) (s t s' : State), Inv s → Inv t → alikeButUnread s t →
    stepWith choice s = .next s' → ∃ t', stepWith choice t = .next t' ∧ alikeButUnread s' t'

/-- 00_scope.md section 5: the registers fit the widths the parameters give them. -/
def Obligations.RegistersFitTheirWidths : Prop :=
  ∀ s : State, Inv s →
    s.pos < 2 ^ s.params.posW ∧ s.exp < 2 ^ s.params.posW ∧
    s.slb < 2 ^ s.params.cntW ∧ s.slvf < 2 ^ s.params.cntW

/-- 60_exceptions.md section 6: a step of one block is that block's own step and leaves every other block as it was; blocks
of different origins step independently, every combination of what each can do being possible. That each power-on of each
block has an origin of its own is how the model keeps their free values apart (log 21). -/
def Obligations.BlocksDoNotAffectEachOther : Prop :=
  (∀ (choice : Nat → Nat → Nat) (k j : Nat) (blocks after : List State),
    stepBlockWith choice k blocks = .next after →
    (k ≠ j → after[j]? = blocks[j]?) ∧ (ownOrigins blocks → ownOrigins after)) ∧
  (∀ (k j : Nat) (blocks after : List State), k ≠ j → stepBlock k blocks = .next after →
    after[j]? = blocks[j]? ∧ ∀ s, blocks[k]? = some s → ∃ t, step s = .next t ∧ after[k]? = some t) ∧
  (∀ (c d : Nat → Nat) (k j : Nat) (blocks : List State) (s t s' t' : State),
    k ≠ j → ownOrigins blocks → blocks[k]? = some s → blocks[j]? = some t →
    stepWith c s = .next s' → stepWith d t = .next t' →
    ∃ choice after, stepBlockWith choice k blocks = .next after ∧
      stepBlockWith choice j after = .next ((blocks.set k s').set j t')) ∧
  (∀ (first : Nat) (ps : List Params), ownOrigins (powerOnBlocks first ps) ∧
    ∀ k, (powerOnBlocks first ps)[k]? = ps[k]?.map fun p => State.powerOn p (first + k))
end

