-- ==== Sys2Proof/Laws/Decode.lean ====
section
/-! SUPPORT. The fields of a command word and everything the decoder can answer (30_encoding.md R61 to R64). -/

namespace Sys2Proof

/-! The fields of a word made from its fields. -/

@[simp] theorem fieldOPC_commandWord (o : BitVec 4) (d : Byte) : fieldOPC (commandWord o d) = o := by
  apply BitVec.eq_of_getLsbD_eq; intro i hi
  simp only [fieldOPC, commandWord, BitVec.getLsbD_extractLsb', BitVec.getLsbD_append]
  interval_cases i <;> simp

@[simp] theorem fieldRSV_commandWord (o : BitVec 4) (d : Byte) : fieldRSV (commandWord o d) = 0#4 := by
  apply BitVec.eq_of_getLsbD_eq; intro i hi
  simp only [fieldRSV, commandWord, BitVec.getLsbD_extractLsb', BitVec.getLsbD_append]
  interval_cases i <;> simp

@[simp] theorem fieldOPD_commandWord (o : BitVec 4) (d : Byte) : fieldOPD (commandWord o d) = d := by
  apply BitVec.eq_of_getLsbD_eq; intro i hi
  simp only [fieldOPD, commandWord, BitVec.getLsbD_extractLsb', BitVec.getLsbD_append]
  interval_cases i <;> simp

/-- A word is its three fields. -/
theorem fields_append (w : CommandWord) : fieldOPC w ++ fieldRSV w ++ fieldOPD w = w := by
  apply BitVec.eq_of_getLsbD_eq; intro i hi
  simp only [fieldOPC, fieldRSV, fieldOPD, BitVec.getLsbD_extractLsb', BitVec.getLsbD_append]
  interval_cases i <;> simp

/-- A word whose reserved field is 0 is made from its other two. -/
theorem commandWord_fields {w : CommandWord} (h : fieldRSV w = 0#4) :
    commandWord (fieldOPC w) (fieldOPD w) = w := by
  have e := fields_append w
  rw [h] at e
  exact e

/-- The mask 0xFF00 keeps the operation code and the reserved field. -/
theorem and_highMask (w : CommandWord) : w &&& 0xFF00#16 = fieldOPC w ++ fieldRSV w ++ 0#8 := by
  apply BitVec.eq_of_getLsbD_eq; intro i hi
  simp only [fieldOPC, fieldRSV, BitVec.getLsbD_extractLsb', BitVec.getLsbD_append, BitVec.getLsbD_and]
  interval_cases i <;> simp

theorem fieldOPD_toNat (w : CommandWord) : (fieldOPD w).toNat = w.toNat % 256 := by
  simp [fieldOPD]

/-! What the decoder can answer. -/

/-- Everything `decodeWord` can answer when it answers a command. -/
theorem decodeWord_cases {w : CommandWord} {i : Instr} (h : decodeWord w = .ok i) :
    fieldRSV w = 0#4 ∧
    ((fieldOPC w = 1#4 ∧ fieldOPD w = 0#8 ∧ i = .init) ∨
     (fieldOPC w = 2#4 ∧ i = .byte (fieldOPD w)) ∨
     (fieldOPC w = 3#4 ∧ fieldOPD w = 0#8 ∧ i = .tick) ∨
     (fieldOPC w = 4#4 ∧ i = .read (fieldOPD w))) := by
  unfold decodeWord at h
  split at h
  · cases h
  · rename_i hr
    refine ⟨not_not.mp hr, ?_⟩
    split at h
    · split at h
      · rename_i h1 h2; exact .inl ⟨h1, h2, by simpa using h.symm⟩
      · cases h
    · split at h
      · rename_i h2; exact .inr (.inl ⟨h2, by simpa using h.symm⟩)
      · split at h
        · split at h
          · rename_i h1 h2; exact .inr (.inr (.inl ⟨h1, h2, by simpa using h.symm⟩))
          · cases h
        · split at h
          · rename_i h4; exact .inr (.inr (.inr ⟨h4, by simpa using h.symm⟩))
          · cases h

/-- A word decodes on a port when its row does and belongs there. -/
theorem decodeOn_eq_ok {p : Port} {w : CommandWord} {i : Instr} :
    decodeOn p w = .ok i ↔ decodeWord w = .ok i ∧ i.port = p := by
  match hw : decodeWord w with
  | .error e => simp [decodeOn, hw]
  | .ok j =>
    simp only [decodeOn, hw, Instr.wellFormedOn, decide_eq_true_eq, Except.ok.injEq]
    split
    · rename_i hp
      simp only [Except.ok.injEq]
      exact ⟨fun h => ⟨h, h ▸ hp⟩, fun h => h.1⟩
    · rename_i hp
      simp only [reduceCtorEq, false_iff, not_and]
      exact fun h hq => hp (h ▸ hq)

/-- A word is illegal on a port when no command of the port has it. -/
theorem decodeOn_eq_error_iff {p : Port} {w : CommandWord} :
    (∃ e, decodeOn p w = .error e) ↔ ∀ i, decodeOn p w ≠ .ok i := by
  constructor
  · rintro ⟨e, he⟩ i hi
    rw [he] at hi
    cases hi
  · intro h
    match he : decodeOn p w with
    | .error e => exact ⟨e, rfl⟩
    | .ok i => exact absurd he (h i)

end Sys2Proof
end

