-- ==== Sys2Proof/Laws/Instances.lean ====
section
/-! SUPPORT. Everything a step of one block among several can do (60_exceptions.md R137). -/

namespace Sys2Proof.Machine

theorem stepBlockWith_of_some {choice : Nat → Nat → Nat} {k : Nat} {blocks : List State} {s t : State}
    (hs : blocks[k]? = some s) (ht : stepWith (choice s.origin) s = .next t) :
    stepBlockWith choice k blocks = .next (blocks.set k t) := by
  simp [stepBlockWith, hs, ht]

theorem stepBlockWith_cases {choice : Nat → Nat → Nat} {k : Nat} {blocks after : List State}
    (h : stepBlockWith choice k blocks = .next after) :
    (blocks[k]? = none ∧ after = blocks) ∨
    ∃ s t, blocks[k]? = some s ∧ stepWith (choice s.origin) s = .next t ∧ after = blocks.set k t := by
  unfold stepBlockWith at h
  split at h
  · rename_i hn
    exact .inl ⟨hn, by simpa using h.symm⟩
  · rename_i s hs
    split at h
    · rename_i t ht
      exact .inr ⟨s, t, hs, ht, by simpa using h.symm⟩
    · cases h
    · cases h

end Sys2Proof.Machine
end

