-- ==== Sys2Proof/Laws/State.lean ====
section
/-! SUPPORT. What each named update of the state leaves in each field. -/

namespace Sys2Proof.Machine

/-! The Assembler reset (40_assembler.md R75). -/

@[simp] theorem asmReset_params (s : State) : (asmReset s).params = s.params := rfl
@[simp] theorem asmReset_bound (s : State) : (asmReset s).bound = s.bound := rfl
@[simp] theorem asmReset_pos (s : State) : (asmReset s).pos = 0 := rfl
@[simp] theorem asmReset_exp (s : State) : (asmReset s).exp = s.params.bufCap := rfl
@[simp] theorem asmReset_buf (s : State) : (asmReset s).buf = s.buf := rfl
@[simp] theorem asmReset_slb (s : State) : (asmReset s).slb = s.slb := rfl
@[simp] theorem asmReset_slvf (s : State) : (asmReset s).slvf = s.slvf := rfl
@[simp] theorem asmReset_store (s : State) : (asmReset s).store = s.store := rfl
@[simp] theorem asmReset_op (s : State) : (asmReset s).op = s.op := rfl
@[simp] theorem asmReset_evr (s : State) : (asmReset s).evr = s.evr := rfl
@[simp] theorem asmReset_rdr (s : State) : (asmReset s).rdr = s.rdr := rfl
@[simp] theorem asmReset_hostReq (s : State) : (asmReset s).hostReq = s.hostReq := rfl
@[simp] theorem asmReset_byteReq (s : State) : (asmReset s).byteReq = s.byteReq := rfl
@[simp] theorem asmReset_tickReq (s : State) : (asmReset s).tickReq = s.tickReq := rfl
@[simp] theorem asmReset_readReq (s : State) : (asmReset s).readReq = s.readReq := rfl
@[simp] theorem asmReset_draws (s : State) : (asmReset s).draws = s.draws := rfl
@[simp] theorem asmReset_origin (s : State) : (asmReset s).origin = s.origin := rfl

/-! Opening an operation (20_memory.md R55). -/

@[simp] theorem beginOp_params (ws : List (Fin 16 × Slot)) (r : EventResponse) (s : State) : (beginOp ws r s).params = s.params := rfl
@[simp] theorem beginOp_bound (ws : List (Fin 16 × Slot)) (r : EventResponse) (s : State) : (beginOp ws r s).bound = s.bound := rfl
@[simp] theorem beginOp_pos (ws : List (Fin 16 × Slot)) (r : EventResponse) (s : State) : (beginOp ws r s).pos = s.pos := rfl
@[simp] theorem beginOp_exp (ws : List (Fin 16 × Slot)) (r : EventResponse) (s : State) : (beginOp ws r s).exp = s.exp := rfl
@[simp] theorem beginOp_buf (ws : List (Fin 16 × Slot)) (r : EventResponse) (s : State) : (beginOp ws r s).buf = s.buf := rfl
@[simp] theorem beginOp_slb (ws : List (Fin 16 × Slot)) (r : EventResponse) (s : State) : (beginOp ws r s).slb = s.slb := rfl
@[simp] theorem beginOp_slvf (ws : List (Fin 16 × Slot)) (r : EventResponse) (s : State) : (beginOp ws r s).slvf = s.slvf := rfl
@[simp] theorem beginOp_store (ws : List (Fin 16 × Slot)) (r : EventResponse) (s : State) : (beginOp ws r s).store = s.store := rfl
@[simp] theorem beginOp_op (ws : List (Fin 16 × Slot)) (r : EventResponse) (s : State) : (beginOp ws r s).op = some ⟨ws, eventWord r⟩ := rfl
@[simp] theorem beginOp_evr (ws : List (Fin 16 × Slot)) (r : EventResponse) (s : State) : (beginOp ws r s).evr = none := rfl
@[simp] theorem beginOp_rdr (ws : List (Fin 16 × Slot)) (r : EventResponse) (s : State) : (beginOp ws r s).rdr = s.rdr := rfl
@[simp] theorem beginOp_hostReq (ws : List (Fin 16 × Slot)) (r : EventResponse) (s : State) : (beginOp ws r s).hostReq = s.hostReq := rfl
@[simp] theorem beginOp_byteReq (ws : List (Fin 16 × Slot)) (r : EventResponse) (s : State) : (beginOp ws r s).byteReq = s.byteReq := rfl
@[simp] theorem beginOp_tickReq (ws : List (Fin 16 × Slot)) (r : EventResponse) (s : State) : (beginOp ws r s).tickReq = s.tickReq := rfl
@[simp] theorem beginOp_readReq (ws : List (Fin 16 × Slot)) (r : EventResponse) (s : State) : (beginOp ws r s).readReq = s.readReq := rfl
@[simp] theorem beginOp_draws (ws : List (Fin 16 × Slot)) (r : EventResponse) (s : State) : (beginOp ws r s).draws = s.draws := rfl
@[simp] theorem beginOp_origin (ws : List (Fin 16 × Slot)) (r : EventResponse) (s : State) : (beginOp ws r s).origin = s.origin := rfl

/-! A read response (30_encoding.md R66). -/

@[simp] theorem respondRead_params (r : ReadResult) (s : State) : (respondRead r s).params = s.params := rfl
@[simp] theorem respondRead_bound (r : ReadResult) (s : State) : (respondRead r s).bound = s.bound := rfl
@[simp] theorem respondRead_pos (r : ReadResult) (s : State) : (respondRead r s).pos = s.pos := rfl
@[simp] theorem respondRead_exp (r : ReadResult) (s : State) : (respondRead r s).exp = s.exp := rfl
@[simp] theorem respondRead_buf (r : ReadResult) (s : State) : (respondRead r s).buf = s.buf := rfl
@[simp] theorem respondRead_slb (r : ReadResult) (s : State) : (respondRead r s).slb = s.slb := rfl
@[simp] theorem respondRead_slvf (r : ReadResult) (s : State) : (respondRead r s).slvf = s.slvf := rfl
@[simp] theorem respondRead_store (r : ReadResult) (s : State) : (respondRead r s).store = s.store := rfl
@[simp] theorem respondRead_op (r : ReadResult) (s : State) : (respondRead r s).op = s.op := rfl
@[simp] theorem respondRead_evr (r : ReadResult) (s : State) : (respondRead r s).evr = s.evr := rfl
@[simp] theorem respondRead_rdr (r : ReadResult) (s : State) : (respondRead r s).rdr = some (readWord r) := rfl
@[simp] theorem respondRead_hostReq (r : ReadResult) (s : State) : (respondRead r s).hostReq = s.hostReq := rfl
@[simp] theorem respondRead_byteReq (r : ReadResult) (s : State) : (respondRead r s).byteReq = s.byteReq := rfl
@[simp] theorem respondRead_tickReq (r : ReadResult) (s : State) : (respondRead r s).tickReq = s.tickReq := rfl
@[simp] theorem respondRead_readReq (r : ReadResult) (s : State) : (respondRead r s).readReq = s.readReq := rfl
@[simp] theorem respondRead_draws (r : ReadResult) (s : State) : (respondRead r s).draws = s.draws := rfl
@[simp] theorem respondRead_origin (r : ReadResult) (s : State) : (respondRead r s).origin = s.origin := rfl

/-! Taking a word from a requester: host. -/

@[simp] theorem setWaiting_host_params (ws : List CommandWord) (s : State) : (setWaiting .host ws s).params = s.params := rfl
@[simp] theorem setWaiting_host_bound (ws : List CommandWord) (s : State) : (setWaiting .host ws s).bound = s.bound := rfl
@[simp] theorem setWaiting_host_pos (ws : List CommandWord) (s : State) : (setWaiting .host ws s).pos = s.pos := rfl
@[simp] theorem setWaiting_host_exp (ws : List CommandWord) (s : State) : (setWaiting .host ws s).exp = s.exp := rfl
@[simp] theorem setWaiting_host_buf (ws : List CommandWord) (s : State) : (setWaiting .host ws s).buf = s.buf := rfl
@[simp] theorem setWaiting_host_slb (ws : List CommandWord) (s : State) : (setWaiting .host ws s).slb = s.slb := rfl
@[simp] theorem setWaiting_host_slvf (ws : List CommandWord) (s : State) : (setWaiting .host ws s).slvf = s.slvf := rfl
@[simp] theorem setWaiting_host_store (ws : List CommandWord) (s : State) : (setWaiting .host ws s).store = s.store := rfl
@[simp] theorem setWaiting_host_op (ws : List CommandWord) (s : State) : (setWaiting .host ws s).op = s.op := rfl
@[simp] theorem setWaiting_host_evr (ws : List CommandWord) (s : State) : (setWaiting .host ws s).evr = s.evr := rfl
@[simp] theorem setWaiting_host_rdr (ws : List CommandWord) (s : State) : (setWaiting .host ws s).rdr = s.rdr := rfl
@[simp] theorem setWaiting_host_hostReq (ws : List CommandWord) (s : State) : (setWaiting .host ws s).hostReq = ws := rfl
@[simp] theorem setWaiting_host_byteReq (ws : List CommandWord) (s : State) : (setWaiting .host ws s).byteReq = s.byteReq := rfl
@[simp] theorem setWaiting_host_tickReq (ws : List CommandWord) (s : State) : (setWaiting .host ws s).tickReq = s.tickReq := rfl
@[simp] theorem setWaiting_host_readReq (ws : List CommandWord) (s : State) : (setWaiting .host ws s).readReq = s.readReq := rfl
@[simp] theorem setWaiting_host_draws (ws : List CommandWord) (s : State) : (setWaiting .host ws s).draws = s.draws := rfl
@[simp] theorem setWaiting_host_origin (ws : List CommandWord) (s : State) : (setWaiting .host ws s).origin = s.origin := rfl

/-! Taking a word from a requester: bytePath. -/

@[simp] theorem setWaiting_bytePath_params (ws : List CommandWord) (s : State) : (setWaiting .bytePath ws s).params = s.params := rfl
@[simp] theorem setWaiting_bytePath_bound (ws : List CommandWord) (s : State) : (setWaiting .bytePath ws s).bound = s.bound := rfl
@[simp] theorem setWaiting_bytePath_pos (ws : List CommandWord) (s : State) : (setWaiting .bytePath ws s).pos = s.pos := rfl
@[simp] theorem setWaiting_bytePath_exp (ws : List CommandWord) (s : State) : (setWaiting .bytePath ws s).exp = s.exp := rfl
@[simp] theorem setWaiting_bytePath_buf (ws : List CommandWord) (s : State) : (setWaiting .bytePath ws s).buf = s.buf := rfl
@[simp] theorem setWaiting_bytePath_slb (ws : List CommandWord) (s : State) : (setWaiting .bytePath ws s).slb = s.slb := rfl
@[simp] theorem setWaiting_bytePath_slvf (ws : List CommandWord) (s : State) : (setWaiting .bytePath ws s).slvf = s.slvf := rfl
@[simp] theorem setWaiting_bytePath_store (ws : List CommandWord) (s : State) : (setWaiting .bytePath ws s).store = s.store := rfl
@[simp] theorem setWaiting_bytePath_op (ws : List CommandWord) (s : State) : (setWaiting .bytePath ws s).op = s.op := rfl
@[simp] theorem setWaiting_bytePath_evr (ws : List CommandWord) (s : State) : (setWaiting .bytePath ws s).evr = s.evr := rfl
@[simp] theorem setWaiting_bytePath_rdr (ws : List CommandWord) (s : State) : (setWaiting .bytePath ws s).rdr = s.rdr := rfl
@[simp] theorem setWaiting_bytePath_hostReq (ws : List CommandWord) (s : State) : (setWaiting .bytePath ws s).hostReq = s.hostReq := rfl
@[simp] theorem setWaiting_bytePath_byteReq (ws : List CommandWord) (s : State) : (setWaiting .bytePath ws s).byteReq = ws := rfl
@[simp] theorem setWaiting_bytePath_tickReq (ws : List CommandWord) (s : State) : (setWaiting .bytePath ws s).tickReq = s.tickReq := rfl
@[simp] theorem setWaiting_bytePath_readReq (ws : List CommandWord) (s : State) : (setWaiting .bytePath ws s).readReq = s.readReq := rfl
@[simp] theorem setWaiting_bytePath_draws (ws : List CommandWord) (s : State) : (setWaiting .bytePath ws s).draws = s.draws := rfl
@[simp] theorem setWaiting_bytePath_origin (ws : List CommandWord) (s : State) : (setWaiting .bytePath ws s).origin = s.origin := rfl

/-! Taking a word from a requester: tickPath. -/

@[simp] theorem setWaiting_tickPath_params (ws : List CommandWord) (s : State) : (setWaiting .tickPath ws s).params = s.params := rfl
@[simp] theorem setWaiting_tickPath_bound (ws : List CommandWord) (s : State) : (setWaiting .tickPath ws s).bound = s.bound := rfl
@[simp] theorem setWaiting_tickPath_pos (ws : List CommandWord) (s : State) : (setWaiting .tickPath ws s).pos = s.pos := rfl
@[simp] theorem setWaiting_tickPath_exp (ws : List CommandWord) (s : State) : (setWaiting .tickPath ws s).exp = s.exp := rfl
@[simp] theorem setWaiting_tickPath_buf (ws : List CommandWord) (s : State) : (setWaiting .tickPath ws s).buf = s.buf := rfl
@[simp] theorem setWaiting_tickPath_slb (ws : List CommandWord) (s : State) : (setWaiting .tickPath ws s).slb = s.slb := rfl
@[simp] theorem setWaiting_tickPath_slvf (ws : List CommandWord) (s : State) : (setWaiting .tickPath ws s).slvf = s.slvf := rfl
@[simp] theorem setWaiting_tickPath_store (ws : List CommandWord) (s : State) : (setWaiting .tickPath ws s).store = s.store := rfl
@[simp] theorem setWaiting_tickPath_op (ws : List CommandWord) (s : State) : (setWaiting .tickPath ws s).op = s.op := rfl
@[simp] theorem setWaiting_tickPath_evr (ws : List CommandWord) (s : State) : (setWaiting .tickPath ws s).evr = s.evr := rfl
@[simp] theorem setWaiting_tickPath_rdr (ws : List CommandWord) (s : State) : (setWaiting .tickPath ws s).rdr = s.rdr := rfl
@[simp] theorem setWaiting_tickPath_hostReq (ws : List CommandWord) (s : State) : (setWaiting .tickPath ws s).hostReq = s.hostReq := rfl
@[simp] theorem setWaiting_tickPath_byteReq (ws : List CommandWord) (s : State) : (setWaiting .tickPath ws s).byteReq = s.byteReq := rfl
@[simp] theorem setWaiting_tickPath_tickReq (ws : List CommandWord) (s : State) : (setWaiting .tickPath ws s).tickReq = ws := rfl
@[simp] theorem setWaiting_tickPath_readReq (ws : List CommandWord) (s : State) : (setWaiting .tickPath ws s).readReq = s.readReq := rfl
@[simp] theorem setWaiting_tickPath_draws (ws : List CommandWord) (s : State) : (setWaiting .tickPath ws s).draws = s.draws := rfl
@[simp] theorem setWaiting_tickPath_origin (ws : List CommandWord) (s : State) : (setWaiting .tickPath ws s).origin = s.origin := rfl

/-! Taking a word from any requester: no register of the block changes. -/

@[simp] theorem setWaiting_params (r : Requester) (ws : List CommandWord) (s : State) : (setWaiting r ws s).params = s.params := by
  cases r <;> rfl
@[simp] theorem setWaiting_bound (r : Requester) (ws : List CommandWord) (s : State) : (setWaiting r ws s).bound = s.bound := by
  cases r <;> rfl
@[simp] theorem setWaiting_pos (r : Requester) (ws : List CommandWord) (s : State) : (setWaiting r ws s).pos = s.pos := by
  cases r <;> rfl
@[simp] theorem setWaiting_exp (r : Requester) (ws : List CommandWord) (s : State) : (setWaiting r ws s).exp = s.exp := by
  cases r <;> rfl
@[simp] theorem setWaiting_buf (r : Requester) (ws : List CommandWord) (s : State) : (setWaiting r ws s).buf = s.buf := by
  cases r <;> rfl
@[simp] theorem setWaiting_slb (r : Requester) (ws : List CommandWord) (s : State) : (setWaiting r ws s).slb = s.slb := by
  cases r <;> rfl
@[simp] theorem setWaiting_slvf (r : Requester) (ws : List CommandWord) (s : State) : (setWaiting r ws s).slvf = s.slvf := by
  cases r <;> rfl
@[simp] theorem setWaiting_store (r : Requester) (ws : List CommandWord) (s : State) : (setWaiting r ws s).store = s.store := by
  cases r <;> rfl
@[simp] theorem setWaiting_op (r : Requester) (ws : List CommandWord) (s : State) : (setWaiting r ws s).op = s.op := by
  cases r <;> rfl
@[simp] theorem setWaiting_evr (r : Requester) (ws : List CommandWord) (s : State) : (setWaiting r ws s).evr = s.evr := by
  cases r <;> rfl
@[simp] theorem setWaiting_rdr (r : Requester) (ws : List CommandWord) (s : State) : (setWaiting r ws s).rdr = s.rdr := by
  cases r <;> rfl
@[simp] theorem setWaiting_readReq (r : Requester) (ws : List CommandWord) (s : State) : (setWaiting r ws s).readReq = s.readReq := by
  cases r <;> rfl
@[simp] theorem setWaiting_draws (r : Requester) (ws : List CommandWord) (s : State) : (setWaiting r ws s).draws = s.draws := by
  cases r <;> rfl
@[simp] theorem setWaiting_origin (r : Requester) (ws : List CommandWord) (s : State) : (setWaiting r ws s).origin = s.origin := by
  cases r <;> rfl

@[simp] theorem waiting_setWaiting_self (r : Requester) (ws : List CommandWord) (s : State) :
    waiting r (setWaiting r ws s) = ws := by cases r <;> rfl

theorem waiting_setWaiting_other {q r : Requester} (h : q ≠ r) (ws : List CommandWord) (s : State) :
    waiting q (setWaiting r ws s) = waiting q s := by cases q <;> cases r <;> first | rfl | exact absurd rfl h

/-! Power-on reset (70_reset_and_hazards.md R141). -/

@[simp] theorem powerOn_params (p : Params) (o : Nat) : (State.powerOn p o).params = p := rfl
@[simp] theorem powerOn_bound (p : Params) (o : Nat) : (State.powerOn p o).bound = false := rfl
@[simp] theorem powerOn_pos (p : Params) (o : Nat) : (State.powerOn p o).pos = 0 := rfl
@[simp] theorem powerOn_exp (p : Params) (o : Nat) : (State.powerOn p o).exp = p.bufCap := rfl
@[simp] theorem powerOn_buf (p : Params) (o : Nat) : (State.powerOn p o).buf = [] := rfl
@[simp] theorem powerOn_slb (p : Params) (o : Nat) : (State.powerOn p o).slb = 0 := rfl
@[simp] theorem powerOn_slvf (p : Params) (o : Nat) : (State.powerOn p o).slvf = 0 := rfl
@[simp] theorem powerOn_store (p : Params) (o : Nat) : (State.powerOn p o).store = Vector.replicate 16 .noDriver := rfl
@[simp] theorem powerOn_op (p : Params) (o : Nat) : (State.powerOn p o).op = none := rfl
@[simp] theorem powerOn_evr (p : Params) (o : Nat) : (State.powerOn p o).evr = none := rfl
@[simp] theorem powerOn_rdr (p : Params) (o : Nat) : (State.powerOn p o).rdr = none := rfl
@[simp] theorem powerOn_hostReq (p : Params) (o : Nat) : (State.powerOn p o).hostReq = [] := rfl
@[simp] theorem powerOn_byteReq (p : Params) (o : Nat) : (State.powerOn p o).byteReq = [] := rfl
@[simp] theorem powerOn_tickReq (p : Params) (o : Nat) : (State.powerOn p o).tickReq = [] := rfl
@[simp] theorem powerOn_readReq (p : Params) (o : Nat) : (State.powerOn p o).readReq = [] := rfl
@[simp] theorem powerOn_draws (p : Params) (o : Nat) : (State.powerOn p o).draws = 0 := rfl
@[simp] theorem powerOn_origin (p : Params) (o : Nat) : (State.powerOn p o).origin = o := rfl

/-! Completing an operation (20_memory.md R52). -/

@[simp] theorem settle_params (s : State) : (settle s).params = s.params := by
  unfold settle; split <;> rfl
@[simp] theorem settle_bound (s : State) : (settle s).bound = s.bound := by
  unfold settle; split <;> rfl
@[simp] theorem settle_pos (s : State) : (settle s).pos = s.pos := by
  unfold settle; split <;> rfl
@[simp] theorem settle_exp (s : State) : (settle s).exp = s.exp := by
  unfold settle; split <;> rfl
@[simp] theorem settle_buf (s : State) : (settle s).buf = s.buf := by
  unfold settle; split <;> rfl
@[simp] theorem settle_slb (s : State) : (settle s).slb = s.slb := by
  unfold settle; split <;> rfl
@[simp] theorem settle_slvf (s : State) : (settle s).slvf = s.slvf := by
  unfold settle; split <;> rfl
@[simp] theorem settle_rdr (s : State) : (settle s).rdr = s.rdr := by
  unfold settle; split <;> rfl
@[simp] theorem settle_hostReq (s : State) : (settle s).hostReq = s.hostReq := by
  unfold settle; split <;> rfl
@[simp] theorem settle_byteReq (s : State) : (settle s).byteReq = s.byteReq := by
  unfold settle; split <;> rfl
@[simp] theorem settle_tickReq (s : State) : (settle s).tickReq = s.tickReq := by
  unfold settle; split <;> rfl
@[simp] theorem settle_readReq (s : State) : (settle s).readReq = s.readReq := by
  unfold settle; split <;> rfl
@[simp] theorem settle_draws (s : State) : (settle s).draws = s.draws := by
  unfold settle; split <;> rfl
@[simp] theorem settle_origin (s : State) : (settle s).origin = s.origin := by
  unfold settle; split <;> rfl

@[simp] theorem settle_op (s : State) : (settle s).op = none := by
  unfold settle; split <;> simp_all

theorem settle_of_idle {s : State} (h : s.op = none) : settle s = s := by simp [settle, h]

theorem settle_of_busy {s : State} {p : Pending} (h : s.op = some p) :
    settle s = { s with store := applyWrites p.writes s.store, op := none, evr := some p.resp } := by
  simp [settle, h]

@[simp] theorem settle_settle (s : State) : settle (settle s) = settle s := settle_of_idle (settle_op s)

theorem settle_beginOp (ws : List (Fin 16 × Slot)) (r : EventResponse) (s : State) :
    settle (beginOp ws r s) =
      { s with store := applyWrites ws s.store, op := none, evr := some (eventWord r) } := rfl

/-! Reading a byte looks at the frame buffer and the origin alone. -/

theorem byteAt_congr {s t : State} (h : t.buf = s.buf) (ho : t.origin = s.origin) (i : Nat) :
    byteAt t i = byteAt s i := by
  simp [byteAt, h, ho]

end Sys2Proof.Machine
end

