-- ==== Sys2Proof/Laws/Ops.lean ====
section
/-! SUPPORT. For each shared operation, what it can do. -/

namespace Sys2Proof.Machine

/-! The frame buffer (00_scope.md R12, R14). -/

theorem byteAt_of_write {s t : State} {i : Nat} {b : Byte} (h : t.buf = s.buf.write i b) : byteAt t i = b := by
  simp [byteAt, h, Memory.read_write_self]

theorem byteAt_of_write_other {s t : State} {i j : Nat} {b : Byte} (h : t.buf = s.buf.write i b)
    (ho : t.origin = s.origin) (hj : j ≠ i) : byteAt t j = byteAt s j := by
  simp [byteAt, h, ho, Memory.read_write_other _ _ hj]

theorem byteAt_of_read {s : State} {i : Nat} {b : Byte} (h : s.buf.read i = some b) : byteAt s i = b := by
  simp [byteAt, h]

theorem bufRead_of_lt {i : Nat} {s : State} (h : i < s.params.bufCap) : bufRead i s = .ok (byteAt s i) := by
  simp [bufRead, h]

theorem bufSlice_of_le {a n : Nat} {s : State} (h : a + n ≤ s.params.bufCap) :
    bufSlice a n s = .ok ((List.range' a n).map (byteAt s)) := by
  simp [bufSlice, h]

theorem bufRead_eq_ok {i : Nat} {s : State} {b : Byte} :
    bufRead i s = .ok b ↔ i < s.params.bufCap ∧ byteAt s i = b := by
  unfold bufRead; split <;> simp [*]

theorem bufSlice_eq_ok {a n : Nat} {s : State} {bs : List Byte} :
    bufSlice a n s = .ok bs ↔ a + n ≤ s.params.bufCap ∧ (List.range' a n).map (byteAt s) = bs := by
  unfold bufSlice; split <;> simp [*]

theorem bufWrite_eq_ok {i : Nat} {b : Byte} {s t : State} :
    bufWrite i b s = .ok t ↔ i < s.params.bufCap ∧ { s with buf := s.buf.write i b } = t := by
  unfold bufWrite; split <;> simp [*]

/-! The Assembler (40_assembler.md R76 to R79). -/

/-- The state `Append(b)` leaves (40_assembler.md R76). -/
def appended (b : Byte) (s : State) : State :=
  { s with slb := 0, buf := s.buf.write s.pos b, pos := s.pos + 1 }

theorem append_of_lt {b : Byte} {s : State} (h : s.pos < s.params.bufCap) : append b s = .ok (appended b s) := by
  simp [append, bufWrite, h, appended]

theorem append_eq_ok {b : Byte} {s t : State} :
    append b s = .ok t ↔ s.pos < s.params.bufCap ∧ appended b s = t := by
  unfold append bufWrite appended
  by_cases h : s.pos < s.params.bufCap <;> simp [h]

theorem captureLength_of_ne {s : State} (h : s.pos ≠ 2) : captureLength s = .ok (s, .none) := by
  simp [captureLength, h]

/-- Length capture (40_assembler.md R77, R78). -/
theorem captureLength_of_two {s : State} (h : s.pos = 2) (hc : 1 < s.params.bufCap) :
    captureLength s =
      if 2 + (byteAt s 1).toNat > s.params.bufCap then .ok (asmReset s, .oversize)
      else .ok ({ s with exp := 2 + (byteAt s 1).toNat }, .none) := by
  simp [captureLength, h, bufRead_of_lt hc, Config.hdr]

theorem captureLength_cases {s t : State} {e : Evt} (h : captureLength s = .ok (t, e)) :
    (s.pos ≠ 2 ∧ t = s ∧ e = .none) ∨
    (s.pos = 2 ∧ 2 + (byteAt s 1).toNat > s.params.bufCap ∧ t = asmReset s ∧ e = .oversize) ∨
    (s.pos = 2 ∧ 2 + (byteAt s 1).toNat ≤ s.params.bufCap ∧
      t = { s with exp := 2 + (byteAt s 1).toNat } ∧ e = .none) := by
  by_cases h2 : s.pos = 2
  · by_cases hc : 1 < s.params.bufCap
    · rw [captureLength_of_two h2 hc] at h
      split at h <;> simp only [Except.ok.injEq, Prod.mk.injEq] at h
      · exact .inr (.inl ⟨h2, ‹_›, h.1.symm, h.2.symm⟩)
      · exact .inr (.inr ⟨h2, by omega, h.1.symm, h.2.symm⟩)
    · simp [captureLength, h2, bufRead, hc] at h
  · rw [captureLength_of_ne h2] at h
    simp only [Except.ok.injEq, Prod.mk.injEq] at h
    exact .inl ⟨h2, h.1.symm, h.2.symm⟩

/-- Everything the Decoder can find (41_decoder.md R93, R95 to R103), `l` being the frame's length byte. -/
theorem decodeFrame_cases {s : State} {d : Decoded} (h : decodeFrame s = .ok d) :
    ((byteAt s 1).toNat < 2 ∧ d = ⟨s, .short, []⟩) ∨
    (2 ≤ (byteAt s 1).toNat ∧ (byteAt s 1).toNat + 1 < s.params.bufCap ∧
      ((crc8 s.params.crcPoly 0#8 ((List.range' 2 ((byteAt s 1).toNat - 1)).map (byteAt s)) ≠
          byteAt s ((byteAt s 1).toNat + 1) ∧ d = ⟨s, .crc, []⟩) ∨
       (crc8 s.params.crcPoly 0#8 ((List.range' 2 ((byteAt s 1).toNat - 1)).map (byteAt s)) =
          byteAt s ((byteAt s 1).toNat + 1) ∧
        ((byteAt s 2 = 0x16#8 ∧ (byteAt s 1).toNat = 24 ∧
            d = ⟨{ s with slvf := 0 }, .channels, channelWrites ((List.range' 3 22).map (byteAt s))⟩) ∨
         (¬(byteAt s 2 = 0x16#8 ∧ (byteAt s 1).toNat = 24) ∧ d = ⟨{ s with slvf := 0 }, .other, []⟩))))) := by
  unfold decodeFrame at h
  split at h
  · cases h
  · rename_i l hl
    obtain ⟨h1, rfl⟩ := bufRead_eq_ok.mp hl
    split at h
    · exact .inl ⟨‹_›, by simpa using h.symm⟩
    · rename_i h2
      unfold checkFrame at h
      split at h
      · cases h
      · rename_i span hs
        obtain ⟨_, rfl⟩ := bufSlice_eq_ok.mp hs
        split at h
        · cases h
        · rename_i c hc
          obtain ⟨hlt, rfl⟩ := bufRead_eq_ok.mp hc
          refine .inr ⟨by omega, hlt, ?_⟩
          split at h
          · rename_i hcrc
            refine .inr ⟨hcrc, ?_⟩
            unfold dispatchFrame at h
            split at h
            · cases h
            · rename_i ty hty
              obtain ⟨_, rfl⟩ := bufRead_eq_ok.mp hty
              split at h
              · rename_i hch
                split at h
                · cases h
                · rename_i p hp
                  obtain ⟨_, rfl⟩ := bufSlice_eq_ok.mp hp
                  exact .inl ⟨hch.1, hch.2, by simpa [Config.chPayload] using h.symm⟩
              · rename_i hch
                exact .inr ⟨hch, by simpa using h.symm⟩
          · exact .inl ⟨‹_›, by simpa using h.symm⟩

/-- A frame that fits the buffer is decoded without a fault (41_decoder.md R94). -/
theorem decodeFrame_ok {s : State} (h : (byteAt s 1).toNat + 2 ≤ s.params.bufCap)
    (hc : 2 ≤ s.params.bufCap) : ∃ d, decodeFrame s = .ok d := by
  unfold decodeFrame
  rw [bufRead_of_lt (by omega)]
  dsimp only
  split
  · exact ⟨_, rfl⟩
  · unfold checkFrame
    rw [bufSlice_of_le (by omega), bufRead_of_lt (by omega)]
    dsimp only
    split
    · unfold dispatchFrame
      rw [bufRead_of_lt (by omega)]
      dsimp only
      split
      · rename_i h2
        have : (byteAt s 1).toNat = 24 := h2.2
        rw [bufSlice_of_le (by simp only [Config.chPayload]; omega)]
        exact ⟨_, rfl⟩
      · exact ⟨_, rfl⟩
    · exact ⟨_, rfl⟩

/-- Everything completion can do (40_assembler.md R79). -/
theorem complete_cases {s : State} {e : Evt} {d : Decoded} (h : complete s e = .ok d) :
    (¬(e = .none ∧ 2 ≤ s.pos ∧ s.pos = s.exp) ∧ d = ⟨s, e, []⟩) ∨
    (e = .none ∧ 2 ≤ s.pos ∧ s.pos = s.exp ∧
      ∃ d', decodeFrame s = .ok d' ∧ d = { d' with state := asmReset d'.state }) := by
  unfold complete at h
  split at h
  · rename_i hc
    split at h
    · cases h
    · rename_i d' hd
      exact .inr ⟨hc.1, hc.2.1, hc.2.2, d', hd, by simpa using h.symm⟩
  · exact .inl ⟨‹_›, by simpa using h.symm⟩

/-! The counters (00_scope.md R13, 42_supervisor.md R114). -/

theorem le_satInc (p : Params) (c : Nat) : c ≤ satInc p c := by unfold satInc; split <;> omega

theorem satInc_le_succ (p : Params) (c : Nat) : satInc p c ≤ c + 1 := by unfold satInc; split <;> omega

theorem satInc_le_max {p : Params} {c : Nat} (h : c ≤ p.counterMax) : satInc p c ≤ p.counterMax := by
  unfold satInc; split <;> omega

theorem satInc_of_lt {p : Params} {c : Nat} (h : c < p.counterMax) : satInc p c = c + 1 := by simp [satInc, h]

theorem satInc_of_ge {p : Params} {c : Nat} (h : p.counterMax ≤ c) : satInc p c = c := by
  simp [satInc, Nat.not_lt.mpr h]

/-! Slot writes (20_memory.md R44, R50). -/

theorem applyWrites_cons (w : Fin 16 × Slot) (ws : List (Fin 16 × Slot)) (st : Store) :
    applyWrites (w :: ws) st = applyWrites ws (st.set w.1 w.2) := rfl

/-- A slot no write names keeps its content. -/
theorem applyWrites_get_of_not_mem {ws : List (Fin 16 × Slot)} {st : Store} {i : Fin 16}
    (h : i ∉ ws.map Prod.fst) : (applyWrites ws st)[i] = st[i] := by
  induction ws generalizing st with
  | nil => rfl
  | cons w ws ih =>
    simp only [List.map_cons, List.mem_cons, not_or] at h
    rw [applyWrites_cons, ih h.2]
    have hne : (w.1 : Nat) ≠ (i : Nat) := fun he => h.1 (Fin.ext he.symm)
    simp [hne]

/-- A slot one write names gets that write's content. -/
theorem applyWrites_get_of_mem {ws : List (Fin 16 × Slot)} {st : Store} {i : Fin 16} {v : Slot}
    (hn : (ws.map Prod.fst).Nodup) (h : (i, v) ∈ ws) : (applyWrites ws st)[i] = v := by
  induction ws generalizing st with
  | nil => simp at h
  | cons w ws ih =>
    simp only [List.map_cons, List.nodup_cons] at hn
    rcases List.mem_cons.mp h with rfl | h
    · rw [applyWrites_cons, applyWrites_get_of_not_mem hn.1]
      simp
    · rw [applyWrites_cons, ih hn.2 h]

theorem store_ext {a b : Store} (h : ∀ i : Fin 16, a[i] = b[i]) : a = b :=
  Vector.ext fun i hi => h ⟨i, hi⟩

theorem mem_allSlots (i : Fin 16) : i ∈ allSlots := List.mem_finRange i

theorem everySlot_fst (v : Slot) : (everySlot v).map Prod.fst = allSlots := by
  simp [everySlot, Function.comp_def]

theorem channelWrites_fst (p : List Byte) : (channelWrites p).map Prod.fst = allSlots := by
  simp [channelWrites, Function.comp_def]

theorem allSlots_nodup : allSlots.Nodup := List.nodup_finRange 16

theorem everySlot_nodup (v : Slot) : ((everySlot v).map Prod.fst).Nodup := everySlot_fst v ▸ allSlots_nodup

theorem channelWrites_nodup (p : List Byte) : ((channelWrites p).map Prod.fst).Nodup :=
  channelWrites_fst p ▸ allSlots_nodup

theorem applyWrites_everySlot (v : Slot) (st : Store) :
    applyWrites (everySlot v) st = Vector.replicate 16 v := by
  refine store_ext fun i => ?_
  rw [applyWrites_get_of_mem (v := v) (everySlot_nodup v)
    (List.mem_map.mpr ⟨i, mem_allSlots i, rfl⟩)]
  simp

theorem applyWrites_channelWrites (p : List Byte) (st : Store) (i : Fin 16) :
    (applyWrites (channelWrites p) st)[i] = .value (unpack p i) :=
  applyWrites_get_of_mem (channelWrites_nodup p) (List.mem_map.mpr ⟨i, mem_allSlots i, rfl⟩)

/-- Landing one write before the others makes no difference in the end (20_memory.md R50). -/
theorem applyWrites_eraseIdx {ws : List (Fin 16 × Slot)} {k : Nat} {w : Fin 16 × Slot} (st : Store)
    (hn : (ws.map Prod.fst).Nodup) (h : ws[k]? = some w) :
    applyWrites (ws.eraseIdx k) (st.set w.1 w.2) = applyWrites ws st := by
  induction ws generalizing k st with
  | nil => simp at h
  | cons x ws ih =>
    simp only [List.map_cons, List.nodup_cons] at hn
    cases k with
    | zero => simp at h; subst h; rfl
    | succ k =>
      simp only [List.getElem?_cons_succ] at h
      rw [List.eraseIdx_cons_succ, applyWrites_cons, applyWrites_cons, ← ih (st.set x.1 x.2) hn.2 h]
      have hne : (w.1 : Nat) ≠ (x.1 : Nat) := fun he =>
        hn.1 (List.mem_map.mpr ⟨w, List.mem_of_getElem? h, Fin.ext he⟩)
      rw [Vector.set_comm _ _ hne]

/-! The operation in progress (20_memory.md R55). -/

/-- Everything the landing of a write can do. -/
theorem landWrite_cases (k : Nat) (s : State) :
    landWrite k s = s ∨ ∃ p w, s.op = some p ∧ p.writes[k]? = some w ∧
      landWrite k s =
        { s with store := s.store.set w.1 w.2, op := some { p with writes := p.writes.eraseIdx k } } := by
  unfold landWrite
  split
  · exact .inl rfl
  · rename_i p hp
    split
    · exact .inl rfl
    · rename_i w hw
      exact .inr ⟨p, w, hp, hw, rfl⟩

/-- The landing of one write leaves what the operation completes to. -/
theorem settle_landWrite {k : Nat} {s : State} (hn : ∀ p, s.op = some p → (p.writes.map Prod.fst).Nodup) :
    settle (landWrite k s) = settle s := by
  rcases landWrite_cases k s with h | ⟨p, w, hp, hw, h⟩
  · rw [h]
  · rw [h, settle_of_busy rfl, settle_of_busy hp]
    simp only [applyWrites_eraseIdx _ (hn p hp) hw]

/-- Everything an event operation can answer when it answers a next state. -/
theorem wholeOp_eq_next {f : State → Except Fault State} {s t : State} :
    wholeOp f s = .next t ↔ (s.op ≠ none ∧ t = s) ∨ (s.op = none ∧ ∃ u, f s = .ok u ∧ t = settle u) := by
  unfold wholeOp
  split
  · rename_i p hp; simp [hp, eq_comm]
  · rename_i hp
    split
    · rename_i u hu; simp [hp, hu, eq_comm]
    · rename_i e he; simp [hp, he]

theorem openOp_eq_next {f : State → Except Fault State} {s t : State} :
    openOp f s = .next t ↔ (s.op ≠ none ∧ t = s) ∨ (s.op = none ∧ f s = .ok t) := by
  unfold openOp
  split
  · rename_i p hp; simp [hp, eq_comm]
  · rename_i hp
    split
    · rename_i u hu; simp [hp, hu]
    · rename_i e he; simp [hp, he]

theorem wholeOp_of_ok {f : State → Except Fault State} {s u : State} (hi : s.op = none) (h : f s = .ok u) :
    wholeOp f s = .next (settle u) := by simp [wholeOp, hi, h]

theorem wholeOp_of_busy {f : State → Except Fault State} {s : State} (h : s.op ≠ none) :
    wholeOp f s = .next s := wholeOp_eq_next.mpr (.inl ⟨h, rfl⟩)

/-! One step (00_scope.md R19). -/

/-- Everything one step can do: nothing when nothing is enabled, else one enabled action. -/
theorem stepWith_cases (choice : Nat → Nat) (s : State) :
    (enabled s = [] ∧ stepWith choice s = .next s) ∨
    ∃ a ∈ enabled s, stepWith choice s = perform a s ∨
      stepWith choice s = perform a { s with draws := s.draws + 1 } := by
  unfold stepWith
  split
  · exact .inl ⟨‹_›, rfl⟩
  · rename_i a h; exact .inr ⟨a, by simp [h], .inl rfl⟩
  · rename_i a b rest h
    refine .inr ⟨_, ?_, .inr rfl⟩
    rw [h]
    have hlt : choice s.draws % (rest.length + 2) < (a :: b :: rest).length := by
      simpa using Nat.mod_lt _ (Nat.succ_pos _)
    rw [List.getD_eq_getElem _ _ hlt]
    exact List.getElem_mem _

/-- Any enabled action is the one some resolution of the open choices takes. -/
theorem stepWith_of_enabled {s : State} {a : Action} (h : a ∈ enabled s) :
    ∃ choice, stepWith choice s = perform a s ∨
      stepWith choice s = perform a { s with draws := s.draws + 1 } := by
  obtain ⟨k, hk, rfl⟩ := List.getElem_of_mem h
  refine ⟨fun _ => k, ?_⟩
  unfold stepWith
  split
  · rename_i he; simp [he] at hk
  · rename_i x he
    left
    have hx : (enabled s)[k] = x := by
      simp only [he, List.length_singleton] at hk
      have : k = 0 := by omega
      subst this; simp [he]
    rw [hx]
  · rename_i x y rest he
    right
    have hlen : k < rest.length + 2 := by rw [he] at hk; exact hk
    rw [Nat.mod_eq_of_lt hlen]
    congr 1
    rw [List.getD_eq_getElem (x :: y :: rest) x hlen]
    simp [he]

theorem mem_enabled_idle {s : State} (h : s.op = none) {a : Action} :
    a ∈ enabled s ↔ (∃ r, waiting r s ≠ [] ∧ a = .accept r) ∨ (s.readReq ≠ [] ∧ a = .serveRead) := by
  simp only [enabled, eventActions, h, readActions, List.mem_append, List.mem_map, List.mem_filter]
  constructor
  · rintro (⟨r, ⟨_, hr⟩, rfl⟩ | ha)
    · exact .inl ⟨r, by simpa using hr, rfl⟩
    · split at ha
      · simp at ha
      · rename_i hr; exact .inr ⟨by simpa using hr, by simpa using ha⟩
  · rintro (⟨r, hr, rfl⟩ | ⟨hr, rfl⟩)
    · exact .inl ⟨r, ⟨by cases r <;> simp, by simpa using hr⟩, rfl⟩
    · exact .inr (by simp [hr])

theorem mem_enabled_busy {s : State} {p : Pending} (h : s.op = some p) {a : Action} :
    a ∈ enabled s ↔ (p.writes = [] ∧ a = .respond) ∨ (∃ k, k < p.writes.length ∧ a = .land k) ∨
      (s.readReq ≠ [] ∧ a = .serveRead) := by
  simp only [enabled, eventActions, h, readActions, List.mem_append]
  have hrd : a ∈ (if s.readReq.isEmpty then [] else [Action.serveRead]) ↔ s.readReq ≠ [] ∧ a = .serveRead := by
    by_cases hr : s.readReq = [] <;> simp [hr]
  rw [hrd, ← or_assoc]
  refine or_congr ?_ Iff.rfl
  by_cases hw : p.writes = []
  · simp [hw]
  · simp only [List.isEmpty_iff, hw, if_false, List.mem_map, List.mem_range, false_and, false_or]
    exact exists_congr fun k => and_congr Iff.rfl eq_comm

end Sys2Proof.Machine
end

