-- ==== Sys2Proof/Laws/PerInstr.lean ====
section
/-! SUPPORT. What holds of each command as syntax: its word is illegal on the port that is not its own
(30_encoding.md R64). -/

namespace Sys2Proof

/-- The port a command does not belong to. -/
def Instr.otherPort (i : Instr) : Port :=
  match i.port with
  | .event => .read
  | .read => .event

/-- The word of a command is rejected as `wrongPort` on the other port. -/
def Laws.RejectedOnTheOtherPort.Statement (i : Instr) : Prop :=
  decodeOn i.otherPort (encode i) = .error .wrongPort

theorem Laws.RejectedOnTheOtherPort.init : Laws.RejectedOnTheOtherPort.Statement .init := by
  unfold Laws.RejectedOnTheOtherPort.Statement; decide

theorem Laws.RejectedOnTheOtherPort.byte (b : Byte) : Laws.RejectedOnTheOtherPort.Statement (.byte b) := by
  simp [Laws.RejectedOnTheOtherPort.Statement, decodeOn, decodeWord, encode, Instr.otherPort, Instr.port,
    Instr.wellFormedOn]

theorem Laws.RejectedOnTheOtherPort.tick : Laws.RejectedOnTheOtherPort.Statement .tick := by
  unfold Laws.RejectedOnTheOtherPort.Statement; decide

theorem Laws.RejectedOnTheOtherPort.read (idx : Byte) : Laws.RejectedOnTheOtherPort.Statement (.read idx) := by
  simp [Laws.RejectedOnTheOtherPort.Statement, decodeOn, decodeWord, encode, Instr.otherPort, Instr.port,
    Instr.wellFormedOn]

end Sys2Proof
end

