-- ==== Sys2Proof/Machine/AssemblyText.lean ====
section
/-! DEFINITION. The text form of command sequences (30_encoding.md R72, R73): one line, a name, its numbers separated by
spaces or commas, a comment from `;` on (log 20). -/

namespace Sys2Proof.Machine

/-- The value of a hex digit, upper or lower case. -/
def digitValue (c : Char) : Option Nat :=
  if 48 ≤ c.toNat ∧ c.toNat ≤ 57 then some (c.toNat - 48)
  else if 65 ≤ c.toNat ∧ c.toNat ≤ 70 then some (c.toNat - 55)
  else if 97 ≤ c.toNat ∧ c.toNat ≤ 102 then some (c.toNat - 87)
  else none

/-- Digits of a base, most significant first, onto the value read so far. -/
def digitsFrom (base : Nat) : Nat → List Char → Option Nat
  | n, [] => some n
  | n, c :: cs =>
    match digitValue c with
    | some d => if d < base then digitsFrom base (base * n + d) cs else none
    | none => none

/-- A number in decimal, or `0x` and hex digits (30_encoding.md R72). -/
def textNumber : List Char → Option Nat
  | [] => none
  | ['0', 'x'] => none
  | '0' :: 'x' :: cs => digitsFrom 16 0 cs
  | cs => digitsFrom 10 0 cs

/-- A number from 0 to 255 (30_encoding.md R72). -/
def textByte (cs : List Char) : Option Byte :=
  match textNumber cs with
  | some n => if n < 256 then some (BitVec.ofNat 8 n) else none
  | none => none

/-- A channel value, 0 to 2047 (30_encoding.md R74). -/
def textChannel (cs : List Char) : Option Channel :=
  match textNumber cs with
  | some n => if n < 2048 then some (BitVec.ofNat 11 n) else none
  | none => none

/-- The words of a line: what stands before `;`, cut at spaces, tabs and commas. -/
def lineTokens (line : List Char) : List (List Char) :=
  ((line.takeWhile fun c => c != ';').splitOnP fun c => c == ' ' || c == ',' || c == '\t').filter
    fun w => !w.isEmpty

/-- A line's tokens as a command or a pseudo-instruction (30_encoding.md R72, R73). -/
def tokensLine : List (List Char) → Option Pseudo
  | [['I', 'N', 'I', 'T']] => some (.one .init)
  | [['T', 'I', 'C', 'K']] => some (.one .tick)
  | [['R', 'E', 'A', 'D', 'A', 'L', 'L']] => some .readAll
  | [['B', 'Y', 'T', 'E'], n] => (textByte n).map fun b => .one (.byte b)
  | [['R', 'E', 'A', 'D'], n] => (textByte n).map fun b => .one (.read b)
  | [['T', 'I', 'C', 'K', 'S'], n] => (textNumber n).map .ticks
  | ['B', 'Y', 'T', 'E', 'S'] :: ns => (ns.mapM textByte).map .bytes
  | ['F', 'R', 'A', 'M', 'E'] :: a :: t :: ns =>
    match textByte a, textByte t, ns.mapM textByte with
    | some a, some t, some p => some (.frame a t p)
    | _, _, _ => none
  | ['B', 'A', 'D', 'F', 'R', 'A', 'M', 'E'] :: a :: t :: ns =>
    match textByte a, textByte t, ns.mapM textByte with
    | some a, some t, some p => some (.badFrame a t p)
    | _, _, _ => none
  | ['C', 'H', 'F', 'R', 'A', 'M', 'E'] :: a :: ns =>
    match textByte a, ns.mapM textChannel with
    | some a, some c => some (.chFrame a c)
    | _, _ => none
  | _ => none

/-- The lines of a text: an empty or comment line denotes nothing; none when a line is no command or its operands are not
well formed. -/
def assembleText : List (List Char) → Option (List Pseudo)
  | [] => some []
  | l :: ls =>
    if (lineTokens l).isEmpty then assembleText ls
    else
      match tokensLine (lineTokens l), assembleText ls with
      | some c, some cs => if pseudoWellFormed c then some (c :: cs) else none
      | _, _ => none

end Sys2Proof.Machine
end

