-- ==== Sys2Proof/Tests/Slice0.lean ====
section
/-! SUPPORT. Tests of the model, their expected values from 95_test_vectors.md, and for each statement with hypotheses a
concrete state and operands that meet them. -/

namespace Sys2Proof.Machine

/-! ## Helpers -/

/-- A frame buffer whose first bytes are these. -/
def bytesFrom (i : Nat) : List Byte → Memory
  | [] => []
  | b :: bs => (i, b) :: bytesFrom (i + 1) bs

/-- A bound idle block that has received these bytes of a frame of `exp` bytes. -/
def mid (exp : Nat) (bs : List Byte) : State :=
  { State.reset with bound := true, pos := bs.length, exp := exp, buf := bytesFrom 0 bs }

/-- The side conditions of `Inv` as one test, for an idle bound block. -/
def readyCheck (s : State) : Bool :=
  s.bound && decide (s.op = none) && s.params.legal && decide (s.pos < s.exp) && decide (s.exp ≤ s.params.bufCap) &&
    (if s.pos ≤ 1 then decide (s.exp = s.params.bufCap)
     else match s.buf.read 1 with
       | some l => decide (3 ≤ s.exp) && decide (s.exp = 2 + l.toNat)
       | none => false) &&
    decide s.buf.wf && s.buf.all (fun c => decide (c.1 < s.params.bufCap)) &&
    (List.range s.pos).all (fun i => (s.buf.read i).isSome) &&
    decide (s.slb ≤ s.params.counterMax) && decide (s.slvf ≤ s.params.counterMax) &&
    (decide (s.slb ≤ s.params.resyncLimit) || decide (s.pos = 0)) &&
    (decide (s.slvf ≤ s.params.failsafeLimit) || decide (s.store = Vector.replicate 16 .timeout))

theorem ready_of_check {s : State} (h : readyCheck s = true) : Ready s := by
  simp only [readyCheck, Bool.and_eq_true, Bool.or_eq_true, decide_eq_true_eq, List.all_eq_true,
    List.mem_range] at h
  obtain ⟨⟨⟨⟨⟨⟨⟨⟨⟨⟨⟨⟨hb, ho⟩, hp⟩, h1⟩, h2⟩, h3⟩, h4⟩, h5⟩, h6⟩, h7⟩, h8⟩, h9⟩, h10⟩ := h
  refine ⟨⟨hp, h1, h2, fun hx => ?_, fun hx => ?_, h4, h5, h6, h7, h8, fun hx => ?_, fun hx => ?_, fun hx => ?_,
    fun p hx => ?_, fun hx => absurd ho hx⟩, hb, ho⟩
  · rw [if_pos hx] at h3; simpa using h3
  · rw [if_neg (by omega)] at h3
    split at h3
    · rename_i l hl
      simp only [Bool.and_eq_true, decide_eq_true_eq] at h3
      exact ⟨h3.1, l, hl, h3.2⟩
    · cases h3
  · exact h9.resolve_left (by omega)
  · rw [settle_of_idle ho]; exact h10.resolve_left (by omega)
  · rw [hb] at hx; cases hx
  · rw [ho] at hx; cases hx

/-- What a next state shows, as one test. -/
def shows (o : Host.Outcome State Fault Refusal) (f : State → Bool) : Bool :=
  match o with
  | .next t => f t
  | .fault _ => false
  | .refused _ => false

/-- The payload of vector L1-2, all sixteen channels 992. -/
def payload992 : List Byte :=
  [0xE0, 0x03, 0x1F, 0xF8, 0xC0, 0x07, 0x3E, 0xF0, 0x81, 0x0F, 0x7C,
   0xE0, 0x03, 0x1F, 0xF8, 0xC0, 0x07, 0x3E, 0xF0, 0x81, 0x0F, 0x7C]

/-- The block before the last byte of the frame of vector L1-2. -/
def beforeLast : State := mid 26 (0xC8 :: 0x18 :: 0x16 :: payload992)

/-! ## Well-formedness: a term each check refuses -/

theorem test_wellFormed_refuses_wrong_port :
    (Instr.read 5#8).wellFormedOn .event = false ∧ Instr.tick.wellFormedOn .read = false := by decide

theorem test_legal_refuses_small_buffer : { Params.default with bufCap := 25 }.legal = false := by decide

theorem test_legal_refuses_large_buffer : { Params.default with bufCap := 258 }.legal = false := by decide

theorem test_legal_refuses_narrow_counter :
    { Params.default with cntW := 1, resyncLimit := 0, failsafeLimit := 0 }.legal = false := by decide

theorem test_legal_refuses_wide_counter : { Params.default with cntW := 33 }.legal = false := by decide

theorem test_legal_refuses_resync_limit : { Params.default with resyncLimit := 65535 }.legal = false := by decide

theorem test_legal_refuses_failsafe_limit :
    { Params.default with failsafeLimit := 65535 }.legal = false := by decide

theorem test_legal_takes_the_extremes :
    Params.default.legal = true ∧ (Params.mk 26 0 0 2 0#8).legal = true ∧
      (Params.mk 257 (2 ^ 32 - 2) (2 ^ 32 - 2) 32 0xFF#8).legal = true := by decide

theorem test_pseudo_refuses_operands :
    pseudoWellFormed (.frame 0#8 0#8 (List.replicate 254 0#8)) = false ∧
      pseudoWellFormed (.badFrame 0#8 0#8 (List.replicate 254 0#8)) = false ∧
      pseudoWellFormed (.chFrame 0#8 [1#11]) = false := by decide +kernel

/-! ## Decoding: words written out from 30_encoding.md R61 and R62 -/

theorem test_decode_init : decodeOn .event 0b0001000000000000#16 = .ok .init := by decide

theorem test_decode_byte : decodeOn .event 0b0010000011001000#16 = .ok (.byte 200#8) := by decide

theorem test_decode_tick : decodeOn .event 0b0011000000000000#16 = .ok .tick := by decide

theorem test_decode_read : decodeOn .read 0b0100000000000101#16 = .ok (.read 5#8) := by decide

/-- Vectors E-1 to E-7 and R-9, R-10. -/
theorem test_decode_illegal :
    [0x5000, 0x0000, 0x1001, 0x2100, 0x4000, 0x3001, 0xF0FF].any (fun w =>
        (decodeOn .event (BitVec.ofNat 16 w)).isOk) = false ∧
      [0x4100, 0x2000, 0x1000, 0x0000, 0xFFFF].any (fun w =>
        (decodeOn .read (BitVec.ofNat 16 w)).isOk) = false := by decide

theorem test_decodeTableWord :
    decodeTableWord 16 0x1000 = some .init ∧ decodeTableWord 16 0x20C8 = some (.byte 0xC8#8) ∧
      decodeTableWord 16 0x3000 = some .tick ∧ decodeTableWord 16 0x4005 = some (.read 5#8) ∧
      decodeTableWord 16 0x5000 = none := by decide

/-! ## One step each -/

/-- Vector I-1. -/
theorem test_init_after_reset :
    shows (step (State.reset.withFetchWord 16 0x1000)) (fun t =>
      t.bound && decide (t.evr = some 0x00240000#32)) = true := by decide

/-- Vector I-2. -/
theorem test_init_discards :
    shows (exec .init { mid 26 [0xC8, 0x18, 0x16, 0x01, 0x02] with
        slb := 2, slvf := 2, store := Vector.replicate 16 (.value 992#11) }) (fun t =>
      decide (t.pos = 0 ∧ t.exp = 36 ∧ t.slb = 0 ∧ t.slvf = 0 ∧ t.store = Vector.replicate 16 .noDriver)) = true := by
  decide

/-- Vector A-1. -/
theorem test_byte_before_init :
    shows (step (State.reset.withFetchWord 16 0x20C8)) (fun t =>
      decide (t.evr = some 0x40240000#32 ∧ t.pos = 0)) = true := by decide

/-- Vector L1-2 and D-1: the last byte of the frame. -/
theorem test_byte_completes_channel_frame :
    shows (exec (.byte 0xAD#8) beforeLast) (fun t =>
      decide (t.evr = some 0x00240101#32 ∧ t.store = Vector.replicate 16 (.value 992#11))) = true := by decide +kernel

/-- Vector S-2, the fourth tick. -/
theorem test_tick_resync :
    shows (exec .tick { mid 26 [0xC8, 0x18, 0x16, 0xE0, 0x03] with slb := 3, slvf := 3 }) (fun t =>
      decide (t.evr = some 0x00240004#32 ∧ t.pos = 0 ∧ t.exp = 36 ∧ t.slb = 4 ∧ t.slvf = 4)) = true := by decide

/-- Vector S-4. -/
theorem test_tick_failsafe :
    shows (exec .tick { mid 36 [] with
        slb := 32, slvf := 32, store := Vector.replicate 16 (.value 992#11) }) (fun t =>
      decide (t.evr = some 0x0024000C#32 ∧ t.slvf = 33 ∧ t.store = Vector.replicate 16 .timeout)) = true := by decide +kernel

/-- Vectors R-1 and R-4. -/
theorem test_read_after_reset :
    shows (step (State.reset.withFetchWord 16 0x4000)) (fun t => decide (t.rdr = some 0x4000#16)) = true ∧
      shows (step (State.reset.withFetchWord 16 0x40FF)) (fun t => decide (t.rdr = some 0xC000#16)) = true := by decide

/-- Vector R-6: the largest value. -/
theorem test_read_value :
    shows (exec (.read 7#8) { mid 36 [] with store := Vector.replicate 16 (.value 2047#11) }) (fun t =>
      decide (t.rdr = some 0x07FF#16)) = true := by decide

/-- Vectors E-9 and R-10: illegal words on the two ports. -/
theorem test_illegal_words :
    shows (step (State.reset.withFetchWord 16 0x5000)) (fun t => decide (t.evr = some 0xC0240000#32)) = true ∧
      shows (step (State.reset.presentRead 0x2000#16)) (fun t => decide (t.rdr = some 0xE000#16)) = true := by decide

/-! ## Functions with tabled values -/

/-- Vectors C-3, C-4, C-8. -/
theorem test_crc8 :
    crc8 0xD5#8 0#8 [0x01] = 0xD5#8 ∧ crc8 0xD5#8 0#8 [0x80] = 0xEF#8 ∧
      crc8 0xD5#8 0#8 [0x31, 0x32, 0x33, 0x34, 0x35, 0x36, 0x37, 0x38, 0x39] = 0xBC#8 := by decide +kernel

/-- Vector U-6. -/
theorem test_pack :
    packChannels [0, 100, 200, 300, 400, 500, 600, 700, 800, 900, 1000, 1100, 1200, 1300, 1400, 1500] =
      [0x00, 0x20, 0x03, 0x32, 0x58, 0x02, 0x19, 0xFA, 0x60, 0x89, 0x57,
       0x20, 0x23, 0x1C, 0xFA, 0x98, 0x08, 0x4B, 0x8A, 0xE2, 0x95, 0xBB] := by decide +kernel

/-- Vector A-5: `FRAME 0xC8, 0x16`. -/
theorem test_frame_expands :
    sequenceWords 0xD5#8 [.frame 0xC8#8 0x16#8 []] = [0x20C8#16, 0x2002#16, 0x2016#16, 0x20D3#16] := by decide

theorem test_text :
    assembleText [['B', 'Y', 'T', 'E', ' ', '0', 'x', 'C', '8', ';', 'c'], [], ['R', 'E', 'A', 'D', ' ', '1', '6']] =
        some [.one (.byte 0xC8#8), .one (.read 16#8)] ∧
      assembleText [['B', 'Y', 'T', 'E', ' ', '2', '5', '6']] = none := by decide +kernel

/-! ## Witnesses: states and operands that meet the hypotheses of each statement -/

/-- A bound idle block with nothing received and nothing waiting. -/
def fresh : State := mid 36 []

/-- An operation in progress with two slot writes left, beside two waiting READs. -/
def busy : State :=
  { fresh with
    op := some ⟨[(3, .value 3#11), (4, .value 4#11)], 0x00240101#32⟩
    readReq := [0x4003#16, 0x4004#16] }

theorem witness_DecodeOfEncodeIsTheCommand :
    Instr.init.wellFormedOn .event = true ∧ (Instr.byte 0xFF#8).wellFormedOn .event = true ∧
      Instr.tick.wellFormedOn .event = true ∧ (Instr.read 0xFF#8).wellFormedOn .read = true := by decide

theorem witness_DecodedWordIsTheEncoding :
    decodeOn .event 0x20FF#16 = .ok (.byte 0xFF#8) ∧ decodeOn .read 0x4000#16 = .ok (.read 0#8) := by decide

theorem witness_MatchAndMaskSelectTheRow :
    fieldOPC 0x0FFF#16 = 0#4 ∧ 5#4 ≤ fieldOPC 0x5000#16 ∧ 5#4 ≤ fieldOPC 0xFFFF#16 := by decide

theorem witness_OperandIsTheLowByte :
    decodeOn .event 0x2080#16 = .ok (.byte 0x80#8) ∧ decodeOn .read 0x40FF#16 = .ok (.read 0xFF#8) ∧
      decodeOn .event 0x1000#16 = .ok .init ∧ decodeOn .event 0x3000#16 = .ok .tick := by decide

theorem witness_StepRunsTheEventCommand :
    let s := fresh.presentEvent .bytePath 0x20C8#16
    s.op = none ∧ s.readReq = [] ∧ waiting .bytePath s = [0x20C8#16] ∧ waiting .host s = [] ∧
      waiting .tickPath s = [] ∧ decodeOn .event 0x20C8#16 = .ok (.byte 0xC8#8) := by decide

theorem witness_StepRunsTheRead :
    let s := fresh.presentRead 0x4005#16
    s.op = none ∧ waiting .host s = [] ∧ waiting .bytePath s = [] ∧ waiting .tickPath s = [] ∧
      s.readReq = [0x4005#16] ∧ decodeOn .read 0x4005#16 = .ok (.read 5#8) := by decide

theorem witness_IllegalWordOnlyGetsItsResponse_event :
    let s := fresh.presentEvent .host 0x4000#16
    Ready s ∧ s.readReq = [] ∧ waiting .host s = [0x4000#16] ∧ waiting .bytePath s = [] ∧
      waiting .tickPath s = [] ∧ 0x4000#16 &&& 0xFFFF#16 ≠ 0x1000#16 ∧
      0x4000#16 &&& 0xFF00#16 ≠ 0x2000#16 ∧ 0x4000#16 &&& 0xFFFF#16 ≠ 0x3000#16 :=
  ⟨ready_of_check (by decide), by decide⟩

theorem witness_IllegalWordOnlyGetsItsResponse_read :
    let s := fresh.presentRead 0x4100#16
    s.op = none ∧ waiting .host s = [] ∧ waiting .bytePath s = [] ∧ waiting .tickPath s = [] ∧
      s.readReq = [0x4100#16] ∧ 0x4100#16 &&& 0xFF00#16 ≠ 0x4000#16 := by decide

/-- The same words with other requests waiting too, and on the read port while an operation is in progress. -/
theorem witness_IllegalWordOnlyGetsItsResponse_beside :
    (let s := (fresh.presentEvent .host 0x5000#16).presentRead 0x4000#16
     Ready s ∧ waiting .host s = [0x5000#16]) ∧
      { busy with readReq := [0xFFFF#16] }.readReq = 0xFFFF#16 :: [] ∧ 0xFFFF#16 &&& 0xFF00#16 ≠ 0x4000#16 :=
  ⟨⟨ready_of_check (by decide), rfl⟩, by decide⟩

theorem witness_IdleBlockKeepsItsState :
    fresh.op = none ∧ (∀ q, waiting q fresh = []) ∧ fresh.readReq = [] :=
  ⟨rfl, fun q => by cases q <;> rfl, rfl⟩

theorem witness_WaitingRequestsAreServedInAnyOrder :
    (let s := (fresh.presentEvent .tickPath 0x3000#16).presentEvent .bytePath 0x2055#16
     Requester.bytePath ≠ .tickPath ∧ s.op = none ∧ s.readReq = [] ∧ waiting .bytePath s ≠ [] ∧
       waiting .tickPath s ≠ []) ∧
    (let s := { mid 26 [0xC8, 0x18, 0x16, 0xE0, 0x03] with slb := 3, slvf := 3 }
     Ready s ∧ s.params.resyncLimit = 3 ∧ s.slb = 3 ∧ s.pos = 5 ∧ 6 < s.exp) :=
  ⟨by decide, ready_of_check (by decide), by decide⟩

theorem witness_CommandOpensBesideAWaitingRead :
    let s := (fresh.presentEvent .host 0x1000#16).presentRead 0x4000#16
    s.op = none ∧ s.readReq ≠ [] ∧ waiting .host s = [0x1000#16] ∧ waiting .bytePath s = [] ∧
      waiting .tickPath s = [] ∧ decodeOn .event 0x1000#16 = .ok .init := by decide

theorem witness_SlotWritesLandInAnyOrder :
    (∃ t, openOp (beginInstr .tick) fresh = .next t ∧ Instr.tick.port = .event ∧ fresh.op = none) ∧
      ∃ p, busy.op = some p ∧ p.writes ≠ [] ∧ 0 < p.writes.length ∧ 1 < p.writes.length :=
  ⟨⟨_, rfl, rfl, rfl⟩, _, rfl, by decide⟩

theorem witness_EveryInterleavingEndsAsTheWholeOperation :
    let s := fresh.presentRead 0x4000#16
    Instr.init.port = .event ∧ s.op = none ∧ ∃ t p, openOp (beginInstr .init) s = .next t ∧ t.op = some p :=
  ⟨rfl, rfl, _, _, rfl, rfl⟩

theorem witness_TornReadsSeeOldOrNewSlots :
    ∃ p u, busy.op = some p ∧ (p.writes.map Prod.fst).Nodup ∧
      runWhileBusy (fun _ => 1) 1 busy = .next u ∧ u.store ≠ busy.store :=
  ⟨_, _, rfl, by decide, rfl, by decide⟩

theorem witness_BusyPortAcceptsNothing :
    ∃ p t, busy.op = some p ∧ busy.evr = none ∧ stepWith (fun _ => 1) busy = .next t ∧ t.op ≠ none :=
  ⟨_, _, rfl, rfl, rfl, by decide⟩

theorem witness_BusyPortAcceptsNothing_respond :
    ∃ p t, { busy with op := some ⟨[], 0#32⟩, readReq := [] }.op = some p ∧ p.writes = [] ∧
      stepWith (fun _ => 0) { busy with op := some ⟨[], 0#32⟩, readReq := [] } = .next t ∧ t.op = none :=
  ⟨_, _, rfl, rfl, rfl, rfl⟩

theorem inv_powerOn_host (ws : List CommandWord) : Inv { State.reset with hostReq := ws } where
  params_legal := show State.reset.params.legal = true by decide
  pos_lt_exp := show State.reset.pos < State.reset.exp by decide
  exp_le_cap := Nat.le_refl _
  exp_unknown := fun _ => rfl
  exp_known := fun h => absurd h (show ¬2 ≤ State.reset.pos by decide)
  buf_wf := List.Pairwise.nil
  buf_range := fun c hc => absurd hc List.not_mem_nil
  buf_written := fun i hi => absurd hi (Nat.not_lt_zero i)
  slb_le := Nat.zero_le _
  slvf_le := Nat.zero_le _
  gap_idle := fun _ => rfl
  outage_timeout := fun h => absurd h (Nat.not_lt_zero _)
  unbound_idle := fun _ => ⟨rfl, rfl, rfl, rfl, rfl, fun _ hp => absurd hp (by simp [State.reset, State.powerOn])⟩
  writes_nodup := fun _ hp => absurd hp (by simp [State.reset, State.powerOn])
  busy_silent := fun _ => rfl

theorem inv_reset : Inv State.reset := inv_powerOn_host []

/-- Power-on reset, for every statement about an unbound block: `InitBindsAndInitialises`,
`BeforeInitByteAndTickAreUnbound`, `BeforeInitOnlyReadsAnswer`, `TickRunsBothChecks`. -/
theorem witness_unbound : Inv State.reset ∧ State.reset.bound = false ∧ State.reset.op = none :=
  ⟨inv_reset, rfl, rfl⟩

/-- A bound idle block, for the statements whose only hypothesis is `Ready` or an idle port: `AssemblerFollowsItsTable`,
`TickRunsBothChecks`, `TimeoutsStayFiredUnderTicks`, `SyncDetectorFollowsItsTable`, `LinkLossFollowsItsTable`,
`RegistersFitTheirWidths`, `ArrivingRequestsKeepTheInvariant`, `NoStepEverStops`; here in GAP and LOST. -/
theorem witness_ready :
    Ready { fresh with slb := 4, slvf := 33, store := Vector.replicate 16 .timeout } ∧
      Ready { mid 36 [0xC8, 34] with slb := 3, slvf := 32 } :=
  ⟨ready_of_check (by decide), ready_of_check (by decide)⟩

theorem witness_ByteIsAppended :
    (Ready fresh ∧ fresh.pos ≠ 1 ∧ fresh.pos + 1 ≠ fresh.exp) ∧
      (let s := mid 5 [0xC8, 3, 0x16]; Ready s ∧ s.pos ≠ 1 ∧ s.pos + 1 ≠ s.exp) :=
  ⟨⟨ready_of_check (by decide), by decide⟩, ready_of_check (by decide), by decide⟩

/-- Each of the three outcomes at its boundary: 35 is oversized, 34 is not, 0 is SHORT. -/
theorem witness_LengthByteBoundsTheFrame :
    let s := mid 36 [0xC8]
    Ready s ∧ s.pos = 1 ∧ 2 + (35#8).toNat > s.params.bufCap ∧ ¬ 2 + (34#8).toNat > s.params.bufCap ∧
      ¬ 2 + (0#8).toNat > s.params.bufCap :=
  ⟨ready_of_check (by decide), by decide⟩

theorem witness_ShortFrameIsDiscarded :
    (Ready (mid 36 [0xC8]) ∧ (mid 36 [0xC8]).pos = 1) ∧
      (let s := mid 3 [0xC8, 1]; Ready s ∧ s.pos = 2 ∧ s.exp = 3) :=
  ⟨⟨ready_of_check (by decide), rfl⟩, ready_of_check (by decide), by decide⟩

/-- The shortest frame with a CRC, `C8 02 16`, and a byte that is not its CRC 0xD3. -/
theorem witness_CrcMismatchIsDiscarded :
    let s := mid 4 [0xC8, 2, 0x16]
    Ready s ∧ 4 ≤ s.exp ∧ s.pos + 1 = s.exp ∧
      crc8 s.params.crcPoly 0#8 ((List.range' 2 (s.exp - 3)).map (byteAt s)) ≠ 0xD2#8 :=
  ⟨ready_of_check (by decide), by decide, by decide, by decide⟩

/-- Vector A-5: type 0x16 with `L = 2`. -/
theorem witness_OtherFrameClearsOnlySlvf :
    let s := mid 4 [0xC8, 2, 0x16]
    Ready s ∧ 4 ≤ s.exp ∧ s.pos + 1 = s.exp ∧
      crc8 s.params.crcPoly 0#8 ((List.range' 2 (s.exp - 3)).map (byteAt s)) = 0xD3#8 ∧
      ¬(byteAt s 2 = 0x16#8 ∧ s.exp = 26) :=
  ⟨ready_of_check (by decide), by decide, by decide, by decide, by decide⟩

/-- Vector L1-2. -/
theorem witness_ChannelFrameWritesEverySlot :
    Ready beforeLast ∧ beforeLast.pos = 25 ∧ beforeLast.exp = 26 ∧ byteAt beforeLast 2 = 0x16#8 ∧
      crc8 beforeLast.params.crcPoly 0#8 ((List.range' 2 23).map (byteAt beforeLast)) = 0xAD#8 :=
  ⟨ready_of_check (by decide +kernel), rfl, rfl, rfl, by decide +kernel⟩

theorem witness_ChannelFrameRoundTrip :
    Ready beforeLast ∧ (List.replicate 16 992#11).length = 16 ∧ beforeLast.pos = 25 ∧ beforeLast.exp = 26 ∧
      byteAt beforeLast 2 = 0x16#8 ∧
      (List.range' 3 22).map (byteAt beforeLast) = packChannels (List.replicate 16 992#11) :=
  ⟨ready_of_check (by decide +kernel), rfl, rfl, rfl, rfl, by rfl⟩

/-- One payload byte, the last, differs from the 0x7C of vector L1-2. -/
theorem witness_CorruptedChannelFrameLeavesTheStore :
    Ready beforeLast ∧ beforeLast.params.crcPoly.getLsbD 0 = true ∧ beforeLast.pos = 25 ∧ beforeLast.exp = 26 ∧
      byteAt beforeLast 2 = 0x16#8 ∧
      (List.range' 3 22).map (byteAt beforeLast) = payload992.take 21 ++ 0x7C#8 :: [] ∧ 0x7D#8 ≠ 0x7C#8 :=
  ⟨ready_of_check (by decide +kernel), by decide, rfl, rfl, rfl, by rfl, by decide⟩

theorem witness_SupervisorNeverClearsACounter :
    (∃ t, exec .tick fresh = .next t ∧ t.slb = 1) ∧ ∃ t, exec .tick State.reset = .next t :=
  ⟨⟨_, rfl, rfl⟩, _, rfl⟩

/-- Counters at 0, and numbers of ticks on both sides of each limit. -/
theorem witness_TimeoutsFireOnTheTickAfterTheLimit :
    Ready (mid 26 [0xC8, 0x18, 0x16]) ∧ (mid 26 [0xC8, 0x18, 0x16]).slvf = 0 ∧
      (mid 26 [0xC8, 0x18, 0x16]).slb = 0 ∧ 32 ≤ fresh.params.failsafeLimit ∧
      fresh.params.failsafeLimit + 1 ≤ 33 ∧ 3 ≤ fresh.params.resyncLimit ∧ fresh.params.resyncLimit + 1 ≤ 4 :=
  ⟨ready_of_check (by decide), by decide⟩

theorem witness_ReadReturnsTheSlotOrInvalidIndex :
    16 ≤ (16#8 : Byte).toNat ∧ 16 ≤ (255#8 : Byte).toNat := by decide

theorem witness_ReadIsIdempotent :
    (∃ t, exec (.read 15#8) fresh = .next t) ∧ (∃ v, exec (.read 15#8) busy = .next v) ∧
      ∀ i : Fin 16, busy.store[i] = fresh.store[i] := ⟨⟨_, rfl⟩, ⟨_, rfl⟩, fun _ => rfl⟩

theorem witness_EventWordHasTheLayout :
    (EventResponse.mk .illegal 511 .oversize true true true).headroom < 512 := by decide

/-- Each event command completes on an idle port, for `EventResponseSaysWhatHappened` and
`CommandsLeaveThePortsAlone`. -/
theorem witness_EventResponseSaysWhatHappened :
    fresh.op = none ∧ (∃ t, exec .init fresh = .next t) ∧ (∃ t, exec .tick fresh = .next t) ∧
      (∃ t, exec (.byte 0xC8#8) fresh = .next t) ∧ ∃ t, exec (.byte 0xC8#8) State.reset = .next t :=
  ⟨rfl, ⟨_, rfl⟩, ⟨_, rfl⟩, ⟨_, rfl⟩, ⟨_, rfl⟩⟩

theorem witness_EventCommandWaitsWhileBusy : Instr.tick.port = .event ∧ busy.op ≠ none := by decide

theorem witness_BufferIsWrittenOnlyByByteAtPosition :
    (∃ t, exec (.byte 0xC8#8) fresh = .next t ∧ fresh.bound = true ∧ fresh.op = none ∧ 1 ≠ fresh.pos) ∧
      (∃ t, exec (.byte 0xC8#8) State.reset = .next t ∧ State.reset.bound = false) ∧
      (∃ t, exec (.byte 0xC8#8) busy = .next t ∧ busy.op ≠ none) ∧ ∃ t, exec (.read 0#8) fresh = .next t :=
  ⟨⟨_, rfl, by decide⟩, ⟨_, rfl, rfl⟩, ⟨_, rfl, by decide⟩, _, rfl⟩

theorem witness_CommandsLeaveOtherRegistersAlone :
    (∃ t, exec (.byte 0x55#8) fresh = .next t) ∧ fresh.op = none ∧ fresh.bound = true ∧ Instr.tick ≠ .init ∧
      ∃ t, exec (.read 0#8) fresh = .next t := ⟨⟨_, rfl⟩, rfl, rfl, by decide, _, rfl⟩

/-- A command of each of the three writers that changes the store. -/
theorem witness_StoreHasThreeWriters :
    shows (exec (.byte 0xAD#8) beforeLast) (fun t => decide (t.store ≠ beforeLast.store)) = true ∧
      shows (exec .tick { fresh with slvf := 32 }) (fun t => decide (t.store ≠ fresh.store)) = true ∧
      shows (exec .init { fresh with store := Vector.replicate 16 .timeout }) (fun t =>
        decide (t.store ≠ Vector.replicate 16 .timeout)) = true := by decide +kernel

theorem witness_UnboundBlockKeepsItsPowerOnState :
    Inv (State.reset.presentEvent .host 0x3000#16) ∧ State.reset.bound = false ∧
      (∃ t, stepWith (fun _ => 0) (State.reset.presentEvent .host 0x3000#16) = .next t ∧ t.bound = false) ∧
      Inv (State.reset.presentEvent .host 0x1000#16) ∧
      ∃ t, stepWith (fun _ => 0) (State.reset.presentEvent .host 0x1000#16) = .next t ∧ t.bound = true :=
  ⟨inv_powerOn_host _, rfl, ⟨_, rfl, rfl⟩, inv_powerOn_host _, _, rfl, rfl⟩

theorem witness_CrcDetectsAnyOneByteChange : (0xD5#8 : Byte).getLsbD 0 = true ∧ 0x16#8 ≠ 0x17#8 := by decide

theorem witness_ChannelIsItsPayloadBits : payload992.length = 22 ∧ 15 < 16 := by decide

theorem witness_UnpackInvertsPack :
    (List.replicate 16 2047#11).length = 16 ∧ 21 < (packChannels (List.replicate 16 2047#11)).length := by decide

/-- A step that accepts a command, from a state of the invariant, for `EveryStepKeepsTheInvariant` and
`ParametersAndBindingPersist`. -/
theorem witness_EveryStepKeepsTheInvariant :
    let s := fresh.presentEvent .bytePath 0x20C8#16
    Inv s ∧ s.bound = true ∧ (∃ t, step s = .next t ∧ t.pos = 1) ∧
      ∃ t, stepWith (fun _ => 0) s = .next t ∧ t.pos = 1 :=
  ⟨(ready_of_check (by decide)).inv, rfl, ⟨_, rfl, rfl⟩, _, rfl, rfl⟩

/-- Two states that differ in the address byte and in a byte beyond the frame. -/
theorem witness_UnreadBytesAreNeverObserved :
    let s := (mid 36 [0xC8]).presentEvent .bytePath 0x2018#16
    let t := { s with buf := [(0, 0x55#8), (9, 0xAA#8)], origin := 1 }
    Inv s ∧ Inv t ∧ alikeButUnread s t ∧ s ≠ t ∧ ∃ u, stepWith (fun _ => 0) s = .next u ∧ u.pos = 2 := by
  refine ⟨(ready_of_check (by decide)).inv, (ready_of_check (by decide)).inv, ⟨rfl, fun i h1 h2 => ?_⟩,
    by decide +kernel,
    _, rfl, rfl⟩
  have : i < 1 := h2
  omega

theorem witness_PowerOnStateMeetsTheInvariant : (Params.mk 26 0 0 2 0#8).legal = true := by decide

/-- Two blocks of one system, both in the same state but for their origins and both with a choice to make. -/
theorem witness_BlocksDoNotAffectEachOther :
    let s := { (fresh.presentEvent .tickPath 0x3000#16).presentEvent .bytePath 0x2055#16 with origin := 0 }
    let t := { s with origin := 1 }
    (0 : Nat) ≠ 1 ∧ ownOrigins [s, t] ∧ [s, t][0]? = some s ∧ [s, t][1]? = some t ∧
      (∃ u, stepWith (fun _ => 0) s = .next u ∧ u.pos = 1) ∧ (∃ u, stepWith (fun _ => 1) t = .next u ∧ u.slb = 1) ∧
      ∃ after, stepBlock 0 [fresh.presentEvent .host 0x3000#16, State.reset] = .next after :=
  ⟨by decide, by unfold ownOrigins; decide, rfl, rfl, ⟨_, rfl, rfl⟩, ⟨_, rfl, rfl⟩, _, rfl⟩

end Sys2Proof.Machine
end

/-! Everything a step can do, action by action, and the registers it leaves while the block is unbound
(10_state.md R34). -/

namespace Sys2Proof.Machine

/-! What an accepted word leads to. -/

/-- A command of the event port runs as its operation does: whole, or opened beside a waiting READ (log 7). -/
theorem runEvent_eq_runOp {i : Instr} (hi : i.port = .event) (s : State) :
    runEvent i s = runOp (beginInstr i) s := by
  cases i with
  | init => rfl
  | byte b => rfl
  | tick => rfl
  | read idx => cases hi

/-- Everything an event operation accepted on an idle port can answer when it answers a next state. -/
theorem runOp_cases {f : State → Except Fault State} {s t : State} (hi : s.op = none)
    (h : runOp f s = .next t) : ∃ u, f s = .ok u ∧ (t = u ∨ t = settle u) := by
  unfold runOp at h
  split at h
  · rcases wholeOp_eq_next.mp h with ⟨hn, _⟩ | ⟨_, u, hu, rfl⟩
    · exact absurd hi hn
    · exact ⟨u, hu, .inr rfl⟩
  · rcases openOp_eq_next.mp h with ⟨hn, _⟩ | ⟨_, hu⟩
    · exact absurd hi hn
    · exact ⟨t, hu, .inl rfl⟩

/-- Everything a word accepted on the idle event port can lead to: the start of its operation, or all of it. -/
theorem acceptEvent_cases {w : CommandWord} {s t : State} (hi : s.op = none)
    (h : acceptEvent w s = .next t) :
    ∃ u, (t = u ∨ t = settle u) ∧
      ((∃ i, decodeOn .event w = .ok i ∧ i.port = .event ∧ beginInstr i s = .ok u) ∨
        beginIllegal s = .ok u) := by
  unfold acceptEvent at h
  split at h
  · rename_i i hd
    have hp : i.port = .event := (decodeOn_eq_ok.mp hd).2
    rw [runEvent_eq_runOp hp] at h
    obtain ⟨u, hu, ht⟩ := runOp_cases hi h
    exact ⟨u, ht, .inl ⟨i, hd, hp, hu⟩⟩
  · obtain ⟨u, hu, ht⟩ := runOp_cases hi h
    exact ⟨u, ht, .inr hu⟩

/-- A word accepted on the read port gets a read response and does nothing else (20_memory.md R45). -/
theorem acceptRead_cases {w : CommandWord} {s t : State} (h : acceptRead w s = .next t) :
    ∃ r, t = respondRead r s := by
  unfold acceptRead at h
  split at h
  · rename_i i hd
    have hp : i.port = .read := (decodeOn_eq_ok.mp hd).2
    cases i with
    | read idx => cases h; exact ⟨_, rfl⟩
    | init => cases hp
    | byte b => cases hp
    | tick => cases hp
  · cases h; exact ⟨_, rfl⟩

/-- A step that answers leaves the state or performs an action enabled in it, whatever choices it has drawn. -/
theorem stepWith_performs {choice : Nat → Nat} {s t : State} (h : stepWith choice s = .next t) :
    t = s ∨ ∃ d, ∃ a ∈ enabled s, perform a { s with draws := d } = .next t := by
  rcases stepWith_cases choice s with ⟨_, he⟩ | ⟨a, ha, he | he⟩
  · exact .inl (by simpa [he] using h.symm)
  · exact .inr ⟨s.draws, a, ha, he ▸ h⟩
  · exact .inr ⟨s.draws + 1, a, ha, he ▸ h⟩

/-! The registers of the block (10_state.md R24 to R30). -/

/-- The registers and the buffer of `t` are those of `s`. -/
structure KeepsRegisters (s t : State) : Prop where
  bound : t.bound = s.bound
  pos : t.pos = s.pos
  exp : t.exp = s.exp
  slb : t.slb = s.slb
  slvf : t.slvf = s.slvf
  store : t.store = s.store
  buf : t.buf = s.buf

theorem KeepsRegisters.refl (s : State) : KeepsRegisters s s := ⟨rfl, rfl, rfl, rfl, rfl, rfl, rfl⟩

theorem KeepsRegisters.trans {s t u : State} (h : KeepsRegisters s t) (k : KeepsRegisters t u) :
    KeepsRegisters s u where
  bound := k.bound.trans h.bound
  pos := k.pos.trans h.pos
  exp := k.exp.trans h.exp
  slb := k.slb.trans h.slb
  slvf := k.slvf.trans h.slvf
  store := k.store.trans h.store
  buf := k.buf.trans h.buf

theorem keepsRegisters_draws (d : Nat) (s : State) : KeepsRegisters s { s with draws := d } :=
  ⟨rfl, rfl, rfl, rfl, rfl, rfl, rfl⟩

theorem keepsRegisters_readReq (ws : List CommandWord) (s : State) :
    KeepsRegisters s { s with readReq := ws } := ⟨rfl, rfl, rfl, rfl, rfl, rfl, rfl⟩

theorem keepsRegisters_respondRead (r : ReadResult) (s : State) : KeepsRegisters s (respondRead r s) :=
  ⟨rfl, rfl, rfl, rfl, rfl, rfl, rfl⟩

theorem keepsRegisters_beginOp (ws : List (Fin 16 × Slot)) (r : EventResponse) (s : State) :
    KeepsRegisters s (beginOp ws r s) := ⟨rfl, rfl, rfl, rfl, rfl, rfl, rfl⟩

theorem keepsRegisters_setWaiting (r : Requester) (ws : List CommandWord) (s : State) :
    KeepsRegisters s (setWaiting r ws s) := by constructor <;> simp

/-- Completing an operation that has no slot write left changes no register. -/
theorem keepsRegisters_settle {s : State} (hw : ∀ p, s.op = some p → p.writes = []) :
    KeepsRegisters s (settle s) := by
  cases hop : s.op with
  | none => rw [settle_of_idle hop]; exact .refl s
  | some p =>
    rw [settle_of_busy hop, hw p hop]
    exact ⟨rfl, rfl, rfl, rfl, rfl, rfl, rfl⟩

/-- An operation that opens with no slot write to make changes no register, opened or whole. -/
theorem keepsRegisters_of_no_writes {r : EventResponse} {s t : State}
    (h : t = beginOp [] r s ∨ t = settle (beginOp [] r s)) : KeepsRegisters s t := by
  have hopen := keepsRegisters_beginOp [] r s
  rcases h with rfl | rfl
  · exact hopen
  · refine hopen.trans (keepsRegisters_settle fun p hp => ?_)
    cases hp
    rfl

/-! The unbound block (10_state.md R34). -/

/-- While unbound every event command but INIT starts with a response and no slot write
(40_assembler.md R83, 42_supervisor.md R108). -/
theorem beginInstr_unbound {i : Instr} {s u : State} (hb : s.bound = false) (hp : i.port = .event)
    (h : beginInstr i s = .ok u) : i = .init ∨ ∃ r, u = beginOp [] r s := by
  cases i with
  | init => exact .inl rfl
  | byte b =>
    simp only [beginInstr, beginByte, hb] at h
    cases h
    exact .inr ⟨_, rfl⟩
  | tick =>
    simp only [beginInstr, beginTick, hb] at h
    cases h
    exact .inr ⟨_, rfl⟩
  | read idx => cases hp

/-- INIT binds the block, and what is left of it after `t` leads to what `exec` of it leads to. -/
theorem init_binds_and_settles {s t u : State} (hi : s.op = none) (hu : beginInit s = .ok u)
    (ht : t = u ∨ t = settle u) : t.bound = true ∧ exec .init s = .next (settle t) := by
  have hbound : u.bound = true := by cases hu; rfl
  have hexec : exec .init s = .next (settle u) := wholeOp_of_ok hi hu
  rcases ht with rfl | rfl
  · exact ⟨hbound, hexec⟩
  · exact ⟨(settle_bound u).trans hbound, by rw [settle_settle, hexec]⟩

/-- A word accepted on the idle event port of an unbound block is INIT, or changes no register. -/
theorem acceptEvent_unbound {w : CommandWord} {s t : State} (hb : s.bound = false) (hi : s.op = none)
    (h : acceptEvent w s = .next t) :
    (t.bound = true ∧ decodeOn .event w = .ok .init ∧ exec .init s = .next (settle t)) ∨
      KeepsRegisters s t := by
  obtain ⟨u, ht, ⟨i, hd, hp, hu⟩ | hu⟩ := acceptEvent_cases hi h
  · rcases beginInstr_unbound hb hp hu with rfl | ⟨r, rfl⟩
    · obtain ⟨hbound, hexec⟩ := init_binds_and_settles hi hu ht
      exact .inl ⟨hbound, hd, hexec⟩
    · exact .inr (keepsRegisters_of_no_writes ht)
  · cases hu
    exact .inr (keepsRegisters_of_no_writes ht)

/-- Serving the read port changes no register. -/
theorem perform_serveRead_keepsRegisters {s t : State} (h : perform .serveRead s = .next t) :
    KeepsRegisters s t := by
  simp only [perform] at h
  split at h
  · cases h; exact .refl s
  · obtain ⟨r, rfl⟩ := acceptRead_cases h
    exact (keepsRegisters_readReq _ s).trans (keepsRegisters_respondRead r _)

/-- An action enabled in an unbound block with no slot write in progress accepts INIT, or changes no register. -/
theorem perform_unbound {a : Action} {s t : State} (hb : s.bound = false)
    (hw : ∀ p, s.op = some p → p.writes = []) (ha : a ∈ enabled s) (h : perform a s = .next t) :
    (t.bound = true ∧ s.op = none ∧ ∃ r w ws, waiting r s = w :: ws ∧ decodeOn .event w = .ok .init ∧
      exec .init (setWaiting r ws s) = .next (settle t)) ∨ KeepsRegisters s t := by
  cases hop : s.op with
  | none =>
    rcases (mem_enabled_idle hop).mp ha with ⟨r, hne, rfl⟩ | ⟨_, rfl⟩
    · obtain ⟨w, ws, hwait⟩ := List.exists_cons_of_ne_nil hne
      simp only [perform, hwait] at h
      rcases acceptEvent_unbound (by simpa using hb) (by simpa using hop) h with ⟨hbound, hd, hexec⟩ | hk
      · exact .inl ⟨hbound, rfl, r, w, ws, hwait, hd, hexec⟩
      · exact .inr ((keepsRegisters_setWaiting r ws s).trans hk)
    · exact .inr (perform_serveRead_keepsRegisters h)
  | some p =>
    rcases (mem_enabled_busy hop).mp ha with ⟨_, rfl⟩ | ⟨k, hk, _⟩ | ⟨_, rfl⟩
    · cases h
      exact .inr (keepsRegisters_settle hw)
    · simp [hw p hop] at hk
    · exact .inr (perform_serveRead_keepsRegisters h)

/-- A step of an unbound block with no slot write in progress accepts INIT, or changes no register. -/
theorem stepWith_unbound {choice : Nat → Nat} {s t : State} (hb : s.bound = false)
    (hw : ∀ p, s.op = some p → p.writes = []) (h : stepWith choice s = .next t) :
    (t.bound = true ∧ s.op = none ∧ ∃ r w ws d, waiting r s = w :: ws ∧ decodeOn .event w = .ok .init ∧
      exec .init (setWaiting r ws { s with draws := d }) = .next (settle t)) ∨ KeepsRegisters s t := by
  rcases stepWith_performs h with rfl | ⟨d, a, ha, hperf⟩
  · exact .inr (.refl t)
  · rcases perform_unbound (s := { s with draws := d }) hb hw ha hperf with
      ⟨hbound, hidle, r, w, ws, hwait, hd, hexec⟩ | hk
    · have hwait' : waiting r s = w :: ws := by cases r <;> exact hwait
      exact .inl ⟨hbound, hidle, r, w, ws, d, hwait', hd, hexec⟩
    · exact .inr ((keepsRegisters_draws d s).trans hk)

/-- Settles O42: the invariant gives the power-on values and leaves no slot write in progress, so that the step is one of
those of `stepWith_unbound`. -/
theorem unboundBlockKeepsItsPowerOnState : Obligations.UnboundBlockKeepsItsPowerOnState := by
  intro choice s t hinv hb hstep
  obtain ⟨hpos, hexp, hslb, hslvf, hstore, hw⟩ := hinv.unbound_idle hb
  refine ⟨⟨hpos, hexp, hslb, hslvf, hstore⟩, ?_⟩
  rcases stepWith_unbound hb hw hstep with hinit | hk
  · exact .inl hinit
  · exact .inr ⟨hk.bound.trans hb, hk.pos, hk.exp, hk.slb, hk.slvf, hk.store, hk.buf⟩

end Sys2Proof.Machine

/-! The memory model (20_memory.md): what an operation opens, how its slot writes land and what a READ sees meanwhile, and
the channels of a payload as bits of one number. -/

namespace Sys2Proof.Machine

/-! READ (20_memory.md R45, 43_store_lifecycle.md R119). -/

@[simp] theorem slotIndex_ofNat (i : Fin 16) : slotIndex (BitVec.ofNat 8 i) = some i := by
  have hi : (BitVec.ofNat 8 i).toNat = i := by simp; omega
  simp [slotIndex, hi]

/-- A READ of a slot answers that slot as it stands. -/
theorem exec_read_slot (i : Fin 16) (s : State) :
    exec (.read (BitVec.ofNat 8 i)) s = .next { s with rdr := some (readWord (.slot s.store[i])) } := by
  simp [exec, execRead, readSlot, respondRead]

theorem exec_read (idx : Byte) (s : State) : exec (.read idx) s = .next (respondRead (readSlot idx s) s) := rfl

/-- What a READ answers looks at the slot it names alone. -/
theorem readSlot_congr {idx : Byte} {s u : State} (h : ∀ i : Fin 16, i.val = idx.toNat → u.store[i] = s.store[i]) :
    readSlot idx u = readSlot idx s := by
  unfold readSlot slotIndex
  by_cases hlt : idx.toNat < 16
  · simpa [hlt] using h ⟨idx.toNat, hlt⟩ rfl
  · simp [hlt]

@[simp] theorem readSlot_respondRead (idx : Byte) (r : ReadResult) (s : State) :
    readSlot idx (respondRead r s) = readSlot idx s := readSlot_congr fun _ _ => rfl

/-- Settles O33: a READ only sets the response, and the response is a function of the slot it names. -/
theorem readIsIdempotent : Obligations.ReadIsIdempotent := by
  intro s t idx hread
  cases hread
  refine ⟨rfl, ?_, fun u v hslot hread' => ?_⟩
  · rw [exec_read, readSlot_respondRead]
    rfl
  · cases hread'
    rw [respondRead_rdr, respondRead_rdr, readSlot_congr hslot]

/-! What an event command opens (20_memory.md R50, R55). -/

/-- What the Decoder finds writes every slot when it reports CHANNELS and none otherwise, and has not changed the store
yet (41_decoder.md R93, R101). -/
structure Decoded.WritesAsReported (s : State) (d : Decoded) : Prop where
  store : d.state.store = s.store
  all : d.evt = .channels → d.writes.map Prod.fst = allSlots
  none : d.evt ≠ .channels → d.writes = []

theorem decodeFrame_writesAsReported {s : State} {d : Decoded} (h : decodeFrame s = .ok d) :
    d.WritesAsReported s := by
  rcases decodeFrame_cases h with ⟨_, rfl⟩ | ⟨_, _, ⟨_, rfl⟩ | ⟨_, ⟨_, _, rfl⟩ | ⟨_, rfl⟩⟩⟩
  · exact ⟨rfl, nofun, fun _ => rfl⟩
  · exact ⟨rfl, nofun, fun _ => rfl⟩
  · exact ⟨rfl, fun _ => channelWrites_fst _, fun hn => absurd rfl hn⟩
  · exact ⟨rfl, nofun, fun _ => rfl⟩

theorem complete_writesAsReported {s : State} {e : Evt} {d : Decoded} (he : e ≠ .channels)
    (h : complete s e = .ok d) : d.WritesAsReported s := by
  rcases complete_cases h with ⟨_, rfl⟩ | ⟨_, _, _, d', hd, rfl⟩
  · exact ⟨rfl, fun hc => absurd hc he, fun _ => rfl⟩
  · obtain ⟨hstore, hall, hnone⟩ := decodeFrame_writesAsReported hd
    exact ⟨hstore, hall, hnone⟩

/-- Length capture leaves the store and reports no channel frame. -/
theorem captureLength_store_evt {s t : State} {e : Evt} (h : captureLength s = .ok (t, e)) :
    t.store = s.store ∧ e ≠ .channels := by
  rcases captureLength_cases h with ⟨_, rfl, rfl⟩ | ⟨_, _, rfl, rfl⟩ | ⟨_, _, rfl, rfl⟩ <;> exact ⟨rfl, nofun⟩

/-- `t` is `s` with an operation of the command `i` opened, its response `r`, its slot writes `ws` still to land: one for
each slot on INIT, a channel frame or a failsafe tick, none otherwise (20_memory.md R50). -/
structure Opens (i : Instr) (s t : State) (ws : List (Fin 16 × Slot)) (r : EventResponse) : Prop where
  op : t.op = some ⟨ws, eventWord r⟩
  store : t.store = s.store
  all : i = .init ∨ r.evt = .channels ∨ r.failsafe = true → ws.map Prod.fst = allSlots
  none : ¬(i = .init ∨ r.evt = .channels ∨ r.failsafe = true) → ws = []

theorem opens_unbound {i : Instr} (hi : i ≠ .init) (s : State) :
    Opens i s (beginOp [] { status := .unbound, headroom := headroom s } s) []
      { status := .unbound, headroom := headroom s } :=
  ⟨rfl, rfl, by simp [hi], fun _ => rfl⟩

theorem beginInit_opens {s t : State} (h : beginInit s = .ok t) : ∃ ws r, Opens .init s t ws r := by
  cases h
  exact ⟨_, _, rfl, rfl, fun _ => everySlot_fst _, fun hn => absurd (.inl rfl) hn⟩

theorem boundByte_opens {b : Byte} {s t : State} (h : boundByte b s = .ok t) :
    ∃ ws r, Opens (.byte b) s t ws r := by
  unfold boundByte at h
  split at h
  · cases h
  · rename_i s1 happ
    obtain ⟨_, rfl⟩ := append_eq_ok.mp happ
    split at h
    · cases h
    · rename_i s2 evt hcap
      obtain ⟨hstore, hevt⟩ := captureLength_store_evt hcap
      split at h
      · cases h
      · rename_i d hd
        have hw := complete_writesAsReported hevt hd
        cases h
        exact ⟨_, _, rfl, hw.store.trans hstore, by simpa using hw.all, by simpa using hw.none⟩

theorem beginByte_opens {b : Byte} {s t : State} (h : beginByte b s = .ok t) :
    ∃ ws r, Opens (.byte b) s t ws r := by
  unfold beginByte at h
  split at h
  · exact boundByte_opens h
  · cases h
    exact ⟨_, _, opens_unbound (by simp) s⟩

@[simp] theorem resyncCheck_store (s : State) : (resyncCheck s).1.store = s.store := by
  unfold resyncCheck; dsimp only; split <;> rfl

@[simp] theorem failsafeCheck_store (s : State) : (failsafeCheck s).1.store = s.store := rfl

theorem boundTick_opens (s : State) : ∃ ws r, Opens .tick s (boundTick s) ws r := by
  refine ⟨_, _, rfl, ?_, fun hfull => ?_, fun hnone => ?_⟩
  · change (failsafeCheck (resyncCheck s).1).1.store = s.store
    simp
  · have hfired : (failsafeCheck (resyncCheck s).1).2 = true := by simpa using hfull
    rw [if_pos hfired, everySlot_fst]
  · have hquiet : (failsafeCheck (resyncCheck s).1).2 ≠ true := by simpa using hnone
    exact if_neg hquiet

theorem beginTick_opens {s t : State} (h : beginTick s = .ok t) : ∃ ws r, Opens .tick s t ws r := by
  unfold beginTick at h
  split at h
  · cases h
    exact boundTick_opens s
  · cases h
    exact ⟨_, _, opens_unbound (by simp) s⟩

/-- Every event command that starts opens an operation. -/
theorem beginInstr_opens {i : Instr} {s t : State} (hi : i.port = .event) (h : beginInstr i s = .ok t) :
    ∃ ws r, Opens i s t ws r := by
  cases i with
  | init => exact beginInit_opens h
  | byte b => exact beginByte_opens h
  | tick => exact beginTick_opens h
  | read idx => cases hi

/-! The steps of an operation in progress (20_memory.md R50 to R52). -/

theorem landWrite_of_write {k : Nat} {s : State} {p : Pending} {w : Fin 16 × Slot} (hp : s.op = some p)
    (hw : p.writes[k]? = some w) :
    landWrite k s =
      { s with store := s.store.set w.1 w.2, op := some { p with writes := p.writes.eraseIdx k } } := by
  simp [landWrite, hp, hw]

/-- A busy block always has something to do. -/
theorem enabled_ne_nil_of_busy {s : State} {p : Pending} (hp : s.op = some p) : enabled s ≠ [] := by
  cases hw : p.writes with
  | nil => exact List.ne_nil_of_mem ((mem_enabled_busy hp).mpr (.inl ⟨hw, rfl⟩))
  | cons w ws => exact List.ne_nil_of_mem ((mem_enabled_busy hp).mpr (.inr (.inl ⟨0, by simp [hw], rfl⟩)))

/-- Everything an action enabled in a busy block can answer: the response when no write is left, the landing of one
remaining write, or the service of a waiting READ. -/
theorem perform_busy_cases {a : Action} {s t : State} {p : Pending} (hp : s.op = some p) (ha : a ∈ enabled s)
    (h : perform a s = .next t) :
    (p.writes = [] ∧ t = settle s) ∨
    (∃ k w, p.writes[k]? = some w ∧ t = landWrite k s) ∨
    (∃ w ws r, s.readReq = w :: ws ∧ t = respondRead r { s with readReq := ws }) := by
  rcases (mem_enabled_busy hp).mp ha with ⟨hw, rfl⟩ | ⟨k, hk, rfl⟩ | ⟨hne, rfl⟩
  · cases h
    exact .inl ⟨hw, rfl⟩
  · cases h
    exact .inr (.inl ⟨k, _, List.getElem?_eq_getElem hk, rfl⟩)
  · obtain ⟨w, ws, hreq⟩ := List.exists_cons_of_ne_nil hne
    simp only [perform, hreq] at h
    obtain ⟨r, rfl⟩ := acceptRead_cases h
    exact .inr (.inr ⟨w, ws, r, hreq, rfl⟩)

/-- Everything a step of a busy block can do, whatever choices it has drawn. -/
theorem stepWith_busy_cases {choice : Nat → Nat} {s t : State} {p : Pending} (hp : s.op = some p)
    (h : stepWith choice s = .next t) :
    ∃ d, (p.writes = [] ∧ t = settle { s with draws := d }) ∨
      (∃ k w, p.writes[k]? = some w ∧ t = landWrite k { s with draws := d }) ∨
      (∃ w ws r, s.readReq = w :: ws ∧ t = respondRead r { s with draws := d, readReq := ws }) := by
  rcases stepWith_cases choice s with ⟨hnil, _⟩ | ⟨a, ha, he | he⟩
  · exact absurd hnil (enabled_ne_nil_of_busy hp)
  · exact ⟨s.draws, perform_busy_cases (s := s) hp ha (he ▸ h)⟩
  · exact ⟨s.draws + 1, perform_busy_cases (s := { s with draws := s.draws + 1 }) hp ha (he ▸ h)⟩

/-- Any remaining write can be the one that lands next. -/
theorem stepWith_lands {s : State} {p : Pending} {k : Nat} (hp : s.op = some p) (hk : k < p.writes.length) :
    ∃ choice d, stepWith choice s = .next (landWrite k { s with draws := d }) := by
  obtain ⟨choice, he | he⟩ := stepWith_of_enabled ((mem_enabled_busy hp).mpr (.inr (.inl ⟨k, hk, rfl⟩)))
  · exact ⟨choice, s.draws, he⟩
  · exact ⟨choice, s.draws + 1, he⟩

/-- Settles O13: what the start of each command opens, and what a step of a busy block can do. -/
theorem slotWritesLandInAnyOrder : Obligations.SlotWritesLandInAnyOrder := by
  refine ⟨fun i s t hi hidle hopen => ?_, fun s p hp hne => ⟨fun k hk => ?_, fun choice t hstep hreq => ?_⟩⟩
  · rcases openOp_eq_next.mp hopen with ⟨hbusy, _⟩ | ⟨_, hbegin⟩
    · exact absurd hidle hbusy
    · obtain ⟨ws, r, hop, hstore, hall, hnone⟩ := beginInstr_opens hi hbegin
      refine ⟨_, r, hop, rfl, hstore, ?_⟩
      split
      · exact hall ‹_›
      · exact hnone ‹_›
  · obtain ⟨choice, d, hstep⟩ := stepWith_lands hp hk
    have hw : p.writes[k]? = some p.writes[k] := List.getElem?_eq_getElem hk
    rw [landWrite_of_write (s := { s with draws := d }) hp hw] at hstep
    exact ⟨choice, _, hstep, rfl, _, hw, rfl⟩
  · obtain ⟨d, ⟨hnil, _⟩ | ⟨k, w, hw, rfl⟩ | ⟨w, ws, r, hcons, rfl⟩⟩ := stepWith_busy_cases hp hstep
    · exact absurd hnil hne
    · rw [landWrite_of_write (s := { s with draws := d }) hp hw]
      exact ⟨k, w, hw, rfl, rfl⟩
    · have hshort : ws = w :: ws := hreq.trans hcons
      simp at hshort

/-! Runs of an operation in progress (20_memory.md R44). -/

/-- What every step of a busy block keeps holds throughout a run of an operation. -/
theorem runWhileBusy_keeps {choice : Nat → Nat} {P : State → Prop}
    (hkeep : ∀ s t p, s.op = some p → stepWith choice s = .next t → P s → P t) {n : Nat} {s u : State}
    (hs : P s) (h : runWhileBusy choice n s = .next u) : P u := by
  induction n generalizing s with
  | zero => cases h; exact hs
  | succ n ih =>
    unfold runWhileBusy at h
    split at h
    · cases h; exact hs
    · rename_i p hp
      split at h
      · rename_i t hstep
        exact ih (hkeep s t p hp hstep hs) h
      · cases h
      · cases h

/-- What the store completes to looks at the store and the operation in progress alone. -/
theorem settle_store_congr {s t : State} (hop : t.op = s.op) (hstore : t.store = s.store) :
    (settle t).store = (settle s).store := by
  cases hp : s.op with
  | none => rw [settle_of_idle hp, settle_of_idle (hop.trans hp), hstore]
  | some p => rw [settle_of_busy hp, settle_of_busy (hop.trans hp), hstore]

/-- `t` is on the way from `s` to what its operation completes to: each slot is old or new, and the remaining writes, no
two of one slot, complete to the same store. -/
structure Between (s t : State) : Prop where
  nodup : ∀ p, t.op = some p → (p.writes.map Prod.fst).Nodup
  slot : ∀ i : Fin 16, t.store[i] = s.store[i] ∨ t.store[i] = (settle s).store[i]
  completes : (settle t).store = (settle s).store

theorem Between.refl {s : State} (hn : ∀ p, s.op = some p → (p.writes.map Prod.fst).Nodup) : Between s s :=
  ⟨hn, fun _ => .inl rfl, rfl⟩

/-- `Between` looks at the store and the operation in progress alone. -/
theorem Between.congr {s t u : State} (h : Between s t) (hop : u.op = t.op) (hstore : u.store = t.store) :
    Between s u where
  nodup p hp := h.nodup p (hop ▸ hp)
  slot i := hstore ▸ h.slot i
  completes := (settle_store_congr hop hstore).trans h.completes

theorem Between.to_settle {s t : State} (h : Between s t) : Between s (settle t) where
  nodup p hp := by simp at hp
  slot i := .inr (by rw [h.completes])
  completes := by rw [settle_settle, h.completes]

/-- The landing of a write gives its slot, whole, what the operation leaves there. -/
theorem Between.to_landWrite {k : Nat} {s t : State} (h : Between s t) : Between s (landWrite k t) := by
  rcases landWrite_cases k t with heq | ⟨p, w, hp, hw, heq⟩
  · exact heq.symm ▸ h
  · have hnodup := h.nodup p hp
    refine ⟨fun q hq => ?_, fun i => ?_, by rw [settle_landWrite h.nodup, h.completes]⟩
    · rw [heq] at hq
      cases hq
      exact hnodup.sublist ((List.eraseIdx_sublist _ _).map _)
    · rw [heq]
      by_cases hi : i = w.1
      · subst hi
        right
        rw [← h.completes, settle_of_busy hp]
        simp [applyWrites_get_of_mem hnodup (List.mem_of_getElem? hw)]
      · have hne : (w.1 : Nat) ≠ (i : Nat) := fun he => hi (Fin.ext he.symm)
        simpa [hne] using h.slot i

theorem stepWith_busy_keeps_between {choice : Nat → Nat} {s t u : State} {p : Pending} (hp : t.op = some p)
    (hstep : stepWith choice t = .next u) (h : Between s t) : Between s u := by
  obtain ⟨d, ⟨_, rfl⟩ | ⟨k, w, _, rfl⟩ | ⟨w, ws, r, _, rfl⟩⟩ := stepWith_busy_cases hp hstep
  · exact (h.congr (u := { t with draws := d }) rfl rfl).to_settle
  · exact (h.congr (u := { t with draws := d }) rfl rfl).to_landWrite
  · exact h.congr rfl rfl

/-- Settles O15: every step of the run stays between the old store and the completed one, and a READ answers the slot as
it stands. -/
theorem tornReadsSeeOldOrNewSlots : Obligations.TornReadsSeeOldOrNewSlots := by
  intro choice s u p n hp hnodup hrun i
  have hstart : Between s s := .refl fun q hq => by
    cases hp.symm.trans hq
    exact hnodup
  have hbetween : Between s u := runWhileBusy_keeps
    (fun _ _ _ hbusy hstep hb => stepWith_busy_keeps_between hbusy hstep hb) hstart hrun
  exact ⟨hbetween.slot i, exec_read_slot i u⟩

/-! The payload as one number (20_memory.md R40, 30_encoding.md R71). -/

theorem payloadByte_drop (p : List Byte) (k j : Nat) : payloadByte (p.drop k) j = payloadByte p (k + j) := by
  simp [payloadByte, List.getD_eq_getElem?_getD]

/-- Dropping payload bytes divides the payload's number by 256 each. -/
theorem payloadNumber_drop (p : List Byte) (k : Nat) :
    payloadNumber (p.drop k) = payloadNumber p / 2 ^ (8 * k) := by
  induction k generalizing p with
  | zero => simp
  | succ k ih =>
    cases p with
    | nil => simp [payloadNumber]
    | cons b p =>
      have htail : payloadNumber (b :: p) / 256 = payloadNumber p := by
        simp only [payloadNumber]; omega
      have hpow : 2 ^ (8 * (k + 1)) = 256 * 2 ^ (8 * k) := by rw [Nat.mul_succ, pow_add]; omega
      rw [List.drop_succ_cons, ih, hpow, ← Nat.div_div_eq_div_mul, htail]

/-- The payload's number is its byte 0 and 256 times the number of the rest; past the payload bytes are 0. -/
theorem payloadNumber_eq_head_add (p : List Byte) :
    payloadNumber p = (payloadByte p 0).toNat + 256 * payloadNumber (p.drop 1) := by
  cases p <;> simp [payloadNumber, payloadByte]

/-- The low 24 bits of a payload's number are its first three bytes. -/
theorem payloadNumber_mod (p : List Byte) :
    payloadNumber p % 2 ^ 24 =
      (payloadByte p 0).toNat + 2 ^ 8 * (payloadByte p 1).toNat + 2 ^ 16 * (payloadByte p 2).toNat := by
  have h0 := payloadNumber_eq_head_add p
  have h1 := payloadNumber_eq_head_add (p.drop 1)
  have h2 := payloadNumber_eq_head_add (p.drop 2)
  simp only [payloadByte_drop, List.drop_drop, Nat.reduceAdd] at h1 h2
  omega

/-- Joining a number to one shifted past its top bit adds them. -/
theorem or_shiftLeft_of_lt {a n : Nat} (b : Nat) (h : a < 2 ^ n) : a ||| b <<< n = a + b * 2 ^ n := by
  rw [Nat.or_comm, ← Nat.shiftLeft_add_eq_or_of_lt h, Nat.shiftLeft_eq, Nat.add_comm]

/-- Three bytes side by side in 24 bits, the first one lowest. -/
theorem threeBytes_toNat (x y z : Byte) :
    (x.setWidth 24 ||| (y.setWidth 24 <<< 8) ||| (z.setWidth 24 <<< 16)).toNat =
      x.toNat + 2 ^ 8 * y.toNat + 2 ^ 16 * z.toNat := by
  have hwide (b : Byte) : b.toNat % 2 ^ 24 = b.toNat := by omega
  have hy : y.toNat <<< 8 % 2 ^ 24 = y.toNat <<< 8 := by omega
  have hz : z.toNat <<< 16 % 2 ^ 24 = z.toNat <<< 16 := by omega
  simp only [BitVec.toNat_or, BitVec.toNat_shiftLeft, BitVec.toNat_setWidth, hwide, hy, hz]
  rw [or_shiftLeft_of_lt _ x.isLt, or_shiftLeft_of_lt _ (by omega)]
  omega

/-- The 24-bit window of a channel is the payload's number from the channel's first byte on. -/
theorem channelWindow_toNat (p : List Byte) (i : Nat) :
    (channelWindow p i).toNat = payloadNumber p / 2 ^ (8 * channelByte i) % 2 ^ 24 := by
  rw [← payloadNumber_drop, payloadNumber_mod]
  simp only [payloadByte_drop]
  exact threeBytes_toNat _ _ _

/-- A channel starts `channelShift` bits into its first byte. -/
theorem channelByte_shift (i : Nat) : 8 * channelByte i + channelShift i = 11 * i := Nat.div_add_mod _ _

/-- Eleven bits from bit `s` on, `s` at most 13, all stand in the low 24. -/
theorem mod_div_mod_of_le {s : Nat} (n : Nat) (hs : s + 11 ≤ 24) :
    n % 2 ^ 24 / 2 ^ s % 2 ^ 11 = n / 2 ^ s % 2 ^ 11 := by
  have hsplit : 2 ^ 24 = 2 ^ s * 2 ^ (24 - s) := by rw [← pow_add]; congr 1; omega
  rw [hsplit, Nat.mod_mul_right_div_self, Nat.mod_mod_of_dvd _ (pow_dvd_pow 2 (by omega))]

theorem unpack_toNat (p : List Byte) (i : Nat) :
    (unpack p i).toNat = payloadNumber p / 2 ^ (11 * i) % 2 ^ 11 := by
  have hshift : channelShift i + 11 ≤ 24 := by
    have : channelShift i < 8 := Nat.mod_lt _ (by decide)
    omega
  calc (unpack p i).toNat
      = (channelWindow p i).toNat / 2 ^ channelShift i % 2 ^ 11 := by
        simp [unpack, Nat.shiftRight_eq_div_pow]
    _ = payloadNumber p / 2 ^ (8 * channelByte i) / 2 ^ channelShift i % 2 ^ 11 := by
        rw [channelWindow_toNat, mod_div_mod_of_le _ hshift]
    _ = payloadNumber p / 2 ^ (11 * i) % 2 ^ 11 := by
        rw [Nat.div_div_eq_div_mul, ← pow_add, channelByte_shift]

/-- Settles O46: the window is the payload's number from the channel's first byte on, and the shift the rest of `11i`. -/
theorem channelIsItsPayloadBits : Obligations.ChannelIsItsPayloadBits :=
  fun p i _ _ => unpack_toNat p i

end Sys2Proof.Machine

/-! The encoding (30_encoding.md): which words a command has, the layout of a read response, and the packing of the channels
as one number. -/

namespace Sys2Proof

/-! The words of each command (30_encoding.md R62, R64). -/

theorem decodeWord_encode (i : Instr) : decodeWord (encode i) = .ok i := by
  cases i <;> simp [encode, decodeWord]

/-- The decoder finds a command only in that command's own word. -/
theorem encode_of_decodeWord {w : CommandWord} {i : Instr} (h : decodeWord w = .ok i) : encode i = w := by
  obtain ⟨hrsv, hrow⟩ := decodeWord_cases h
  have hfields := commandWord_fields hrsv
  obtain ⟨hopc, hopd, rfl⟩ | ⟨hopc, rfl⟩ | ⟨hopc, hopd, rfl⟩ | ⟨hopc, rfl⟩ := hrow
  · rwa [hopc, hopd] at hfields
  · rwa [hopc] at hfields
  · rwa [hopc, hopd] at hfields
  · rwa [hopc] at hfields

/-- A word decodes to a command on a port when it is the command's word and the port the command's. -/
theorem decodeOn_eq_ok_iff_encode {p : Port} {w : CommandWord} {i : Instr} :
    decodeOn p w = .ok i ↔ encode i = w ∧ i.port = p := by
  rw [decodeOn_eq_ok]
  exact and_congr_left fun _ => ⟨encode_of_decodeWord, fun h => h ▸ decodeWord_encode i⟩

theorem fieldOPC_encode_not_reserved (i : Instr) : fieldOPC (encode i) ≠ 0#4 ∧ ¬ 5#4 ≤ fieldOPC (encode i) := by
  cases i <;> simp [encode]

/-- The words of an operation code, whatever their operand, are those that the mask 0xFF00 takes to its word of operand 0. -/
theorem exists_commandWord_iff {o : BitVec 4} {w : CommandWord} :
    (∃ b, commandWord o b = w) ↔ w &&& 0xFF00#16 = commandWord o 0#8 := by
  constructor
  · rintro ⟨b, rfl⟩
    rw [and_highMask, fieldOPC_commandWord, fieldRSV_commandWord, commandWord]
  · intro h
    have hfields : fieldOPC w ++ fieldRSV w ++ 0#8 = o ++ 0#4 ++ 0#8 := and_highMask w ▸ h
    have hhigh : fieldOPC w ++ fieldRSV w = o ++ 0#4 := (BitVec.append_left_inj _).mp hfields
    have hopc : fieldOPC w = o := by
      simpa only [BitVec.extractLsb'_append_eq_left] using congrArg (BitVec.extractLsb' 4 4) hhigh
    have hrsv : fieldRSV w = 0#4 := by
      simpa only [BitVec.extractLsb'_append_eq_right] using congrArg (BitVec.extractLsb' 0 4) hhigh
    exact ⟨fieldOPD w, hopc ▸ commandWord_fields hrsv⟩

/-- A word on a port whose command has no operand is that command's one word. -/
theorem decodeOn_eq_ok_iff_and_fullMask {p : Port} {w : CommandWord} {i : Instr} (hp : i.port = p) :
    decodeOn p w = .ok i ↔ w &&& 0xFFFF#16 = encode i := by
  have hmask : w &&& 0xFFFF#16 = w := BitVec.and_allOnes
  rw [decodeOn_eq_ok_iff_encode, hmask]
  exact ⟨fun h => h.1.symm, fun h => ⟨h.symm, hp⟩⟩

/-- A word on a port whose command takes an operand is known by the mask 0xFF00. -/
theorem exists_decodeOn_eq_ok_iff_and_highMask {p : Port} {w : CommandWord} {o : BitVec 4} {f : Byte → Instr}
    (hf : ∀ b, encode (f b) = commandWord o b) (hp : ∀ b, (f b).port = p) :
    (∃ b, decodeOn p w = .ok (f b)) ↔ w &&& 0xFF00#16 = commandWord o 0#8 := by
  simp only [decodeOn_eq_ok_iff_encode, hf, hp, and_true]
  exact exists_commandWord_iff

/-- The operand of a decoded command is the field OPD, 0 where it has none. -/
theorem eq_fieldOPD_of_decodeOn {p : Port} {w : CommandWord} {i : Instr} {o : BitVec 4} {b : Byte}
    (hi : encode i = commandWord o b) (h : decodeOn p w = .ok i) : b = fieldOPD w := by
  obtain ⟨rfl, -⟩ := decodeOn_eq_ok_iff_encode.mp h
  rw [hi, fieldOPD_commandWord]

/-- Settles O4: a word decodes exactly when it is a command's word, which the masks pick out field by field. -/
theorem matchAndMaskSelectTheRow : Obligations.MatchAndMaskSelectTheRow := by
  intro w
  refine ⟨decodeOn_eq_ok_iff_and_fullMask rfl, ?byte, decodeOn_eq_ok_iff_and_fullMask rfl, ?read, ?reserved,
    fun _ => eq_fieldOPD_of_decodeOn rfl, fun _ => eq_fieldOPD_of_decodeOn rfl, ?noRead, ?onlyRead⟩
  case byte => exact exists_decodeOn_eq_ok_iff_and_highMask (f := .byte) (fun _ => rfl) (fun _ => rfl)
  case read => exact exists_decodeOn_eq_ok_iff_and_highMask (f := .read) (fun _ => rfl) (fun _ => rfl)
  case reserved =>
    intro p hopc
    refine decodeOn_eq_error_iff.mpr fun i hi => ?_
    obtain ⟨rfl, -⟩ := decodeOn_eq_ok_iff_encode.mp hi
    obtain ⟨hne, hnle⟩ := fieldOPC_encode_not_reserved i
    exact hopc.elim hne hnle
  case noRead =>
    rintro i hi idx rfl
    obtain ⟨-, hport⟩ := decodeOn_eq_ok.mp hi
    cases hport
  case onlyRead =>
    intro i hi
    obtain ⟨-, hport⟩ := decodeOn_eq_ok.mp hi
    cases i with
    | read idx => exact ⟨idx, rfl⟩
    | init => cases hport
    | byte b => cases hport
    | tick => cases hport

/-- Settles O5: the operand of all four commands is the field OPD, which is the word modulo 256. -/
theorem operandIsTheLowByte : Obligations.OperandIsTheLowByte := by
  intro w b idx
  rw [← fieldOPD_toNat]
  refine ⟨fun h => ?byte, fun h => ?read, fun h => ?noOperand⟩
  case byte => rw [← eq_fieldOPD_of_decodeOn rfl h]
  case read => rw [← eq_fieldOPD_of_decodeOn rfl h]
  case noOperand =>
    have hzero : 0#8 = fieldOPD w := h.elim (eq_fieldOPD_of_decodeOn rfl) (eq_fieldOPD_of_decodeOn rfl)
    rw [← hzero]
    rfl

end Sys2Proof

namespace Sys2Proof.Machine

/-! The read response (30_encoding.md R66). -/

/-- The two zero fields of a slot's response are three zero bits. -/
theorem readWord_slot (v : Slot) : readWord (.slot v) = slotTag v ++ 0#3 ++ slotVal v :=
  congrArg (· ++ slotVal v) (BitVec.append_assoc (x₁ := slotTag v) (x₂ := 0#1) (x₃ := 0#2))

theorem readWord_slot_eq_or (v : Slot) :
    readWord (.slot v) = ((slotTag v).setWidth 16 <<< 14) ||| (slotVal v).setWidth 16 := by
  have htag : (slotTag v).toNat % 2 ^ 16 = (slotTag v).toNat := by omega
  have hshift : (slotTag v).toNat <<< 14 % 2 ^ 16 = (slotTag v).toNat <<< 14 := by omega
  have hval : (slotVal v).toNat % 2 ^ 16 = (slotVal v).toNat := by omega
  apply BitVec.eq_of_toNat_eq
  calc (readWord (.slot v)).toNat
      = ((slotTag v).toNat <<< 3 ||| 0) <<< 11 ||| (slotVal v).toNat := by
        rw [readWord_slot, BitVec.toNat_append, BitVec.toNat_append, BitVec.toNat_ofNat, Nat.zero_mod]
    _ = (slotTag v).toNat <<< 14 ||| (slotVal v).toNat := by rw [Nat.or_zero, ← Nat.shiftLeft_add]
    _ = (((slotTag v).setWidth 16 <<< 14) ||| (slotVal v).setWidth 16).toNat := by
        simp only [BitVec.toNat_or, BitVec.toNat_shiftLeft, BitVec.toNat_setWidth, htag, hshift, hval]

theorem readWord_slot_zeroBits (v : Slot) : (readWord (.slot v)).extractLsb' 11 3 = 0#3 := by
  rw [readWord_slot, BitVec.extractLsb'_append_eq_of_le le_rfl]
  exact BitVec.extractLsb'_append_eq_right

/-- Settles O35: the layout of a slot's response; the codes and the two error words are closed terms. -/
theorem readWordHasTheLayout : Obligations.ReadWordHasTheLayout :=
  ⟨readWord_slot_eq_or, readWord_slot_zeroBits, fun _ => ⟨rfl, rfl⟩, rfl, rfl, rfl, rfl, rfl, rfl⟩

/-! The packing (30_encoding.md R74). -/

@[simp] theorem packChannels_length (cs : List Channel) : (packChannels cs).length = 22 := by
  simp [packChannels, Config.chPayload]

/-- The lowest `n` bytes of a number, as a payload, are the number modulo `2^(8n)`. -/
theorem payloadNumber_bytes (n N : Nat) :
    payloadNumber ((List.range n).map fun j => BitVec.ofNat 8 (N / 2 ^ (8 * j))) = N % 2 ^ (8 * n) := by
  induction n generalizing N with
  | zero => simp [payloadNumber, Nat.mod_one]
  | succ n ih =>
    have hbyte (j : Nat) : N / 2 ^ (8 * (j + 1)) = N / 2 ^ 8 / 2 ^ (8 * j) := by
      rw [Nat.mul_succ, Nat.add_comm, pow_add, ← Nat.div_div_eq_div_mul]
    have hpow : 2 ^ (8 * (n + 1)) = 2 ^ 8 * 2 ^ (8 * n) := by rw [Nat.mul_succ, Nat.add_comm, pow_add]
    simp only [List.range_succ_eq_map, List.map_cons, List.map_map, Function.comp_def, Nat.succ_eq_add_one,
      payloadNumber, hbyte, ih, hpow, Nat.mod_mul, BitVec.toNat_ofNat, Nat.mul_zero, pow_zero, Nat.div_one,
      Nat.reducePow]

theorem channelsNumber_lt (cs : List Channel) : channelsNumber cs < 2 ^ (11 * cs.length) := by
  induction cs with
  | nil => simp [channelsNumber]
  | cons c cs ih =>
    have hpow : 2 ^ (11 * (cs.length + 1)) = 2 ^ 11 * 2 ^ (11 * cs.length) := by
      rw [Nat.mul_succ, Nat.add_comm, pow_add]
    simp only [channelsNumber, List.length_cons]
    omega

/-- Channel `i` is bits `11i` to `11i + 10` of the channels' number. -/
theorem channelsNumber_div_mod (cs : List Channel) (i : Nat) (h : i < cs.length) :
    channelsNumber cs / 2 ^ (11 * i) % 2 ^ 11 = cs[i].toNat := by
  induction cs generalizing i with
  | nil => cases h
  | cons c cs ih =>
    cases i with
    | zero =>
      simp only [channelsNumber, Nat.mul_zero, pow_zero, Nat.div_one, List.getElem_cons_zero]
      omega
    | succ i =>
      have htail : channelsNumber (c :: cs) / 2 ^ 11 = channelsNumber cs := by
        simp only [channelsNumber]; omega
      rw [Nat.mul_succ, Nat.add_comm, pow_add, ← Nat.div_div_eq_div_mul, htail, List.getElem_cons_succ]
      exact ih i (Nat.lt_of_succ_lt_succ h)

/-- Sixteen channels fill the 22 bytes of their packing, so that nothing of their number is lost. -/
theorem payloadNumber_packChannels {cs : List Channel} (h : cs.length = 16) :
    payloadNumber (packChannels cs) = channelsNumber cs := by
  have hlt := channelsNumber_lt cs
  rw [h] at hlt
  exact (payloadNumber_bytes _ _).trans (Nat.mod_eq_of_lt hlt)

theorem unpack_packChannels {cs : List Channel} (hlen : cs.length = 16) (i : Nat) (h : i < cs.length) :
    unpack (packChannels cs) i = cs[i] := by
  apply BitVec.eq_of_toNat_eq
  rw [unpack_toNat, payloadNumber_packChannels hlen, channelsNumber_div_mod cs i h]

/-- Settles O47: payload and channels are the same number, of which both `unpack` and the channel take the same bits. -/
theorem unpackInvertsPack : Obligations.UnpackInvertsPack := by
  refine fun cs hlen => ⟨packChannels_length cs, fun j hj => ?_, fun i h => unpack_packChannels hlen i h⟩
  simp [packChannels]

end Sys2Proof.Machine

/-! The Assembler (40_assembler.md): what a BYTE of a bound block leads to, by what it is to the frame, and the states
ADDR, LEN and BODY under each event command. -/

namespace Sys2Proof.Machine

/-! The unbound block (40_assembler.md R83, 42_supervisor.md R108). -/

/-- An operation with no slot write changes nothing but the response. -/
theorem settle_beginOp_of_no_writes {s : State} (hi : s.op = none) (r : EventResponse) :
    settle (beginOp [] r s) = { s with evr := some (eventWord r) } := by
  rw [settle_beginOp, ← hi]
  rfl

/-- An event command that starts as the UNBOUND response is that response and nothing else. -/
theorem wholeOp_unbound {f : State → Except Fault State} {s : State} (hi : s.op = none) (hpos : s.pos = 0)
    (hf : f s = .ok (beginOp [] { status := .unbound, headroom := headroom s } s)) :
    wholeOp f s =
      .next { s with evr := some (eventWord { status := .unbound, headroom := s.params.bufCap }) } := by
  have hroom : headroom s = s.params.bufCap := by rw [headroom, hpos, Nat.sub_zero]
  rw [wholeOp_of_ok hi hf, settle_beginOp_of_no_writes hi, hroom]

/-- Settles O18: both commands start as the UNBOUND response, and the Assembler of an unbound block stands at 0. -/
theorem beforeInitByteAndTickAreUnbound : Obligations.BeforeInitByteAndTickAreUnbound := by
  intro s hinv hb hi
  obtain ⟨hpos, -⟩ := hinv.unbound_idle hb
  exact ⟨fun b => wholeOp_unbound hi hpos (by simp [beginByte, hb]),
    wholeOp_unbound hi hpos (by simp [beginTick, hb])⟩

/-! Where the Assembler of a legal state stands (10_state.md R33). -/

theorem Inv.bufCap_ge {s : State} (h : Inv s) : 26 ≤ s.params.bufCap := by
  have hlegal := h.params_legal
  simp only [Params.legal, Params.bufCapLegal, Bool.and_eq_true, decide_eq_true_eq] at hlegal
  omega

theorem Inv.pos_lt_cap {s : State} (h : Inv s) : s.pos < s.params.bufCap :=
  Nat.lt_of_lt_of_le h.pos_lt_exp h.exp_le_cap

/-- The last byte of a frame comes after its length byte: up to that byte the frame is expected to fill the buffer. -/
theorem Inv.two_le_pos_of_last {s : State} (h : Inv s) (hlast : s.pos + 1 = s.exp) : 2 ≤ s.pos := by
  by_contra hlt
  have hexp := h.exp_unknown (by omega)
  have hcap := h.bufCap_ge
  omega

/-- Once the length byte is in, `exp` is what it says (10_state.md R26). -/
theorem Inv.exp_eq_of_two_le {s : State} (h : Inv s) (hpos : 2 ≤ s.pos) : s.exp = 2 + (byteAt s 1).toNat := by
  obtain ⟨-, l, hread, hexp⟩ := h.exp_known hpos
  rw [hexp, byteAt_of_read hread]

theorem byteAt_appended_self (b : Byte) (s : State) : byteAt (appended b s) s.pos = b := byteAt_of_write rfl

theorem byteAt_appended_other (b : Byte) {s : State} {i : Nat} (hi : i ≠ s.pos) :
    byteAt (appended b s) i = byteAt s i := byteAt_of_write_other rfl rfl hi

/-! Length capture and completion (40_assembler.md R77 to R79, 41_decoder.md R93). -/

/-- A byte that is not the length byte leaves `exp`. -/
theorem captureLength_appended_of_ne (b : Byte) {s : State} (h : s.pos ≠ 1) :
    captureLength (appended b s) = .ok (appended b s, .none) :=
  captureLength_of_ne fun hpos => h (Nat.succ.inj hpos)

/-- The length capture reads the length byte just appended. -/
theorem captureLength_appended_of_one (b : Byte) {s : State} (h : s.pos = 1) (hc : 1 < s.params.bufCap) :
    captureLength (appended b s) =
      if 2 + b.toNat > s.params.bufCap then .ok (asmReset (appended b s), .oversize)
      else .ok ({ appended b s with exp := 2 + b.toNat }, .none) := by
  have hlen : byteAt (appended b s) 1 = b := h ▸ byteAt_appended_self b s
  have hcap := captureLength_of_two (s := appended b s) (congrArg (· + 1) h) hc
  rwa [hlen] at hcap

theorem complete_of_unfinished {s : State} {e : Evt} (h : ¬(e = .none ∧ 2 ≤ s.pos ∧ s.pos = s.exp)) :
    complete s e = .ok ⟨s, e, []⟩ := if_neg h

theorem complete_of_decodeFrame {s : State} {d : Decoded} (hpos : 2 ≤ s.pos) (hexp : s.pos = s.exp)
    (hd : decodeFrame s = .ok d) : complete s .none = .ok { d with state := asmReset d.state } := by
  simp [complete, hpos, ← hexp, hd]

/-- A frame of length byte 0 or 1 is SHORT (41_decoder.md R95). -/
theorem decodeFrame_short {s : State} (hc : 1 < s.params.bufCap) (hl : (byteAt s 1).toNat < 2) :
    decodeFrame s = .ok ⟨s, .short, []⟩ := by
  simp [decodeFrame, bufRead_of_lt hc, hl]

/-- Of the registers the Decoder sets `slvf` alone (41_decoder.md R103). -/
theorem decodeFrame_state {s : State} {d : Decoded} (h : decodeFrame s = .ok d) :
    ∃ v, d.state = { s with slvf := v } := by
  rcases decodeFrame_cases h with ⟨_, rfl⟩ | ⟨_, _, ⟨_, rfl⟩ | ⟨_, ⟨_, _, rfl⟩ | ⟨_, rfl⟩⟩⟩
  · exact ⟨s.slvf, rfl⟩
  · exact ⟨s.slvf, rfl⟩
  · exact ⟨0, rfl⟩
  · exact ⟨0, rfl⟩

/-- A decoded frame has an outcome, and it is the Decoder's (60_exceptions.md R128). -/
theorem decodeFrame_evt {s : State} {d : Decoded} (h : decodeFrame s = .ok d) :
    d.evt ≠ .none ∧ d.evt ≠ .oversize := by
  rcases decodeFrame_cases h with ⟨_, rfl⟩ | ⟨_, _, ⟨_, rfl⟩ | ⟨_, ⟨_, _, rfl⟩ | ⟨_, rfl⟩⟩⟩ <;> exact ⟨nofun, nofun⟩

/-! BYTE of a bound idle block (40_assembler.md R82). -/

/-- A BYTE is its append, the length capture `u` and the completion `d`, whatever these are. -/
theorem exec_byte_of_complete {s u : State} {b : Byte} {e : Evt} {d : Decoded} (h : Ready s)
    (hcap : captureLength (appended b s) = .ok (u, e)) (hd : complete u e = .ok d) :
    exec (.byte b) s = .next (settle (beginOp d.writes
      { status := .ok, headroom := headroom d.state, evt := d.evt, consumed := true } d.state)) := by
  refine wholeOp_of_ok h.idle ?_
  simp [beginByte, boundByte, h.bound, append_of_lt h.inv.pos_lt_cap, hcap, hd]

/-- A BYTE that completes no frame leaves the state of the length capture. -/
theorem exec_byte_of_unfinished {s u : State} {b : Byte} {e : Evt} (h : Ready s)
    (hcap : captureLength (appended b s) = .ok (u, e)) (hidle : u.op = none)
    (hunfinished : ¬(e = .none ∧ 2 ≤ u.pos ∧ u.pos = u.exp)) :
    exec (.byte b) s = .next { u with
      evr := some (eventWord { status := .ok, headroom := headroom u, evt := e, consumed := true }) } := by
  rw [exec_byte_of_complete h hcap (complete_of_unfinished hunfinished), settle_beginOp_of_no_writes hidle]

/-- A BYTE that completes a frame leaves what the Decoder finds, the Assembler reset. -/
theorem exec_byte_of_decodeFrame {s u : State} {b : Byte} {d : Decoded} (h : Ready s)
    (hcap : captureLength (appended b s) = .ok (u, .none)) (hpos : 2 ≤ u.pos) (hexp : u.pos = u.exp)
    (hd : decodeFrame u = .ok d) :
    exec (.byte b) s = .next (settle (beginOp d.writes
      { status := .ok, headroom := u.params.bufCap, evt := d.evt, consumed := true } (asmReset d.state))) := by
  have hroom : headroom (asmReset d.state) = u.params.bufCap := by
    obtain ⟨v, hv⟩ := decodeFrame_state hd
    simp [headroom, hv]
  rw [exec_byte_of_complete h hcap (complete_of_decodeFrame hpos hexp hd)]
  simp only [hroom]

/-- A BYTE that completes a frame of length byte 0 or 1 discards it (41_decoder.md R95). -/
theorem exec_byte_of_short {s u : State} {b : Byte} (h : Ready s)
    (hcap : captureLength (appended b s) = .ok (u, .none)) (hidle : u.op = none) (hpos : 2 ≤ u.pos)
    (hexp : u.pos = u.exp) (hc : 1 < u.params.bufCap) (hl : (byteAt u 1).toNat < 2) :
    exec (.byte b) s = .next { asmReset u with
      evr := some (eventWord { status := .ok, headroom := u.params.bufCap, evt := .short, consumed := true }) } := by
  rw [exec_byte_of_decodeFrame h hcap hpos hexp (decodeFrame_short hc hl)]
  exact congrArg Host.Outcome.next (settle_beginOp_of_no_writes (s := asmReset u) hidle _)

/-- A byte that is neither the length byte nor the last of its frame is only appended (40_assembler.md R76). -/
theorem exec_byte_within_frame {s : State} {b : Byte} (h : Ready s) (hne : s.pos ≠ 1) (hlast : s.pos + 1 ≠ s.exp) :
    exec (.byte b) s = .next { s with
      slb := 0, buf := s.buf.write s.pos b, pos := s.pos + 1,
      evr := some (eventWord
        { status := .ok, headroom := s.params.bufCap - (s.pos + 1), evt := .none, consumed := true }) } :=
  exec_byte_of_unfinished h (captureLength_appended_of_ne b hne) h.idle fun ⟨_, _, hexp⟩ => hlast hexp

/-- The last byte of a frame is appended and the frame decoded, the Assembler reset (40_assembler.md R79). -/
theorem exec_byte_last {s : State} (b : Byte) (h : Ready s) (hlast : s.pos + 1 = s.exp) :
    ∃ d, decodeFrame (appended b s) = .ok d ∧
      exec (.byte b) s = .next (settle (beginOp d.writes
        { status := .ok, headroom := s.params.bufCap, evt := d.evt, consumed := true } (asmReset d.state))) := by
  have hpos : 2 ≤ s.pos := h.inv.two_le_pos_of_last hlast
  have hne : 1 ≠ s.pos := Nat.ne_of_lt hpos
  have hcap := captureLength_appended_of_ne b hne.symm
  have hlen : byteAt (appended b s) 1 = byteAt s 1 := byteAt_appended_other b hne
  have hfits : (byteAt (appended b s) 1).toNat + 2 ≤ s.params.bufCap := by
    rw [hlen, Nat.add_comm, ← h.inv.exp_eq_of_two_le hpos]
    exact h.inv.exp_le_cap
  obtain ⟨d, hd⟩ := decodeFrame_ok (s := appended b s) hfits (Nat.le_of_add_left_le hfits)
  exact ⟨d, hd, exec_byte_of_decodeFrame (u := appended b s) h hcap (Nat.le_succ_of_le hpos) hlast hd⟩

/-- Settles O20: the length capture bounds the frame by the byte just appended, and only a length of 0 makes
the frame complete at once. -/
theorem lengthByteBoundsTheFrame : Obligations.LengthByteBoundsTheFrame := by
  intro s b h hpos
  have hc : 1 < s.params.bufCap := Nat.lt_of_lt_of_le (by decide) h.inv.bufCap_ge
  have hbuf : s.buf.write s.pos b = s.buf.write 1 b := by rw [hpos]
  have hlen : byteAt (appended b s) 1 = b := hpos ▸ byteAt_appended_self b s
  have htwo : (appended b s).pos = 2 := congrArg (· + 1) hpos
  have hcap := captureLength_appended_of_one b hpos hc
  rw [← hbuf]
  split
  case isTrue hover =>
    rw [if_pos hover] at hcap
    exact exec_byte_of_unfinished h hcap h.idle (by simp)
  case isFalse hfits =>
    rw [if_neg hfits] at hcap
    split
    case isTrue hzero =>
      subst hzero
      have hl : (byteAt (appended 0#8 s) 1).toNat < 2 := by
        rw [hlen]
        decide
      exact exec_byte_of_short h hcap h.idle (Nat.le_of_eq htwo.symm) htwo hc hl
    case isFalse hzero =>
      have hlong : 2 ≠ 2 + b.toNat := fun heq => hzero (BitVec.eq_of_toNat_eq (by simpa using heq))
      rw [exec_byte_of_unfinished h hcap h.idle fun ⟨_, _, hexp⟩ => hlong (htwo ▸ hexp)]
      simp [appended, headroom, hpos]

/-- Settles O19: a byte is the length byte, the last of its frame, or only appended. -/
theorem byteIsAppended : Obligations.ByteIsAppended := by
  refine ⟨fun s b h => ?_, fun s b h => exec_byte_within_frame h⟩
  by_cases hpos : s.pos = 1
  · rw [lengthByteBoundsTheFrame s b h hpos, hpos]
    split
    · exact ⟨_, rfl, rfl, rfl, .inr ⟨rfl, rfl⟩⟩
    · split
      · exact ⟨_, rfl, rfl, rfl, .inr ⟨rfl, rfl⟩⟩
      · exact ⟨_, rfl, rfl, rfl, .inl rfl⟩
  · by_cases hlast : s.pos + 1 = s.exp
    · obtain ⟨d, hd, hexec⟩ := exec_byte_last b h hlast
      obtain ⟨v, hv⟩ := decodeFrame_state hd
      exact ⟨_, hexec, by simp [hv, appended]⟩
    · exact ⟨_, exec_byte_within_frame h hpos hlast, rfl, rfl, .inl rfl⟩

/-! The Assembler's states (40_assembler.md R81). -/

theorem asmState_addr {s : State} (h : s.pos = 0) : asmState s = .addr := if_pos h

theorem asmState_len {s : State} (h : s.pos = 1) : asmState s = .len := by simp [asmState, h]

theorem asmState_body {s : State} (h : 2 ≤ s.pos) : asmState s = .body s.pos s.exp := by
  rw [asmState, if_neg (by omega), if_neg (by omega)]

@[simp] theorem asmState_settle (s : State) : asmState (settle s) = asmState s := by simp [asmState]

theorem asmState_resyncCheck (s : State) :
    asmState (resyncCheck s).1 =
      if satInc s.params s.slb > s.params.resyncLimit then .addr else asmState s := by
  unfold resyncCheck
  dsimp only
  split <;> rfl

theorem exec_init_of_idle {s : State} (h : s.op = none) :
    exec .init s = .next (settle (beginOp (everySlot .noDriver) { status := .ok, headroom := s.params.bufCap }
      { asmReset s with bound := true, slb := 0, slvf := 0 })) := wholeOp_of_ok (f := beginInit) h rfl

/-- A TICK moves the Assembler by its resync check alone. -/
theorem asmState_boundTick (s : State) : asmState (boundTick s) = asmState (resyncCheck s).1 := rfl

theorem exec_tick_of_ready {s : State} (h : Ready s) : exec .tick s = .next (settle (boundTick s)) :=
  wholeOp_of_ok h.idle (by simp [beginTick, h.bound])

/-- The ADDR row of the table for BYTE. -/
theorem exec_byte_from_addr {s : State} (b : Byte) (h : Ready s) (hpos : s.pos = 0) :
    ∃ t, exec (.byte b) s = .next t ∧ byteAt t s.pos = b ∧ asmState t = .len ∧ reportsEvt t .none := by
  have hlast : s.pos + 1 ≠ s.exp := fun hlast => by
    have := h.inv.two_le_pos_of_last hlast
    omega
  exact ⟨_, exec_byte_within_frame h (by omega) hlast, byteAt_of_write rfl, asmState_len (congrArg (· + 1) hpos),
    _, rfl, rfl⟩

/-- The LEN row of the table for BYTE. -/
theorem exec_byte_from_len {s : State} (b : Byte) (h : Ready s) (hpos : s.pos = 1) :
    ∃ t, exec (.byte b) s = .next t ∧ byteAt t s.pos = b ∧
      if 2 + b.toNat > s.params.bufCap then asmState t = .addr ∧ reportsEvt t .oversize
      else if b = 0#8 then asmState t = .addr ∧ reportsEvt t .short
      else asmState t = .body 2 (2 + b.toNat) ∧ reportsEvt t .none := by
  rw [lengthByteBoundsTheFrame s b h hpos, hpos]
  split
  · exact ⟨_, rfl, byteAt_of_write rfl, rfl, _, rfl, rfl⟩
  · split
    · exact ⟨_, rfl, byteAt_of_write rfl, rfl, _, rfl, rfl⟩
    · exact ⟨_, rfl, byteAt_of_write rfl, rfl, _, rfl, rfl⟩

/-- The BODY row of the table for BYTE. -/
theorem exec_byte_from_body {s : State} (b : Byte) (h : Ready s) (hpos : 2 ≤ s.pos) :
    ∃ t, exec (.byte b) s = .next t ∧ byteAt t s.pos = b ∧
      if s.pos + 1 = s.exp then asmState t = .addr ∧ ∃ o, o ≠ .none ∧ o ≠ .oversize ∧ reportsEvt t o
      else asmState t = .body (s.pos + 1) s.exp ∧ reportsEvt t .none := by
  split
  case isTrue hlast =>
    obtain ⟨d, hd, hexec⟩ := exec_byte_last b h hlast
    obtain ⟨v, hv⟩ := decodeFrame_state hd
    obtain ⟨hnone, hoversize⟩ := decodeFrame_evt hd
    exact ⟨_, hexec, byteAt_of_write (s := s) (by simp [hv, appended]), asmState_addr rfl,
      d.evt, hnone, hoversize, _, rfl, rfl⟩
  case isFalse hlast =>
    exact ⟨_, exec_byte_within_frame h (by omega) hlast, byteAt_of_write rfl,
      asmState_body (Nat.le_succ_of_le hpos), _, rfl, rfl⟩

/-- Settles O25: BYTE row by row of the table, TICK by its resync check, INIT by its Assembler reset. -/
theorem assemblerFollowsItsTable : Obligations.AssemblerFollowsItsTable := by
  refine fun s h => ⟨fun b => ?byte, ⟨_, exec_tick_of_ready h, ?tick⟩, ⟨_, exec_init_of_idle h.idle, rfl⟩⟩
  case byte =>
    by_cases haddr : s.pos = 0
    · rw [asmState_addr haddr]
      exact exec_byte_from_addr b h haddr
    by_cases hlen : s.pos = 1
    · rw [asmState_len hlen]
      exact exec_byte_from_len b h hlen
    · have hbody : 2 ≤ s.pos := by omega
      rw [asmState_body hbody]
      exact exec_byte_from_body b h hbody
  case tick =>
    rw [asmState_settle, asmState_boundTick, asmState_resyncCheck]
    split <;> rfl

end Sys2Proof.Machine

/-! The Decoder (41_decoder.md): the CRC of a sequence, and what the last byte of a frame leaves, by what
the Decoder finds. -/

namespace Sys2Proof.Machine

/-! The CRC-8 function (41_decoder.md R90, R91). -/

@[simp] theorem crc8_nil (poly seed : Byte) : crc8 poly seed [] = seed := rfl

@[simp] theorem crc8_cons (poly seed x : Byte) (seq : List Byte) :
    crc8 poly seed (x :: seq) = crc8 poly (crcByte poly seed x) seq := rfl

theorem crc8_append (poly seed : Byte) (a b : List Byte) :
    crc8 poly seed (a ++ b) = crc8 poly (crc8 poly seed a) b := List.foldl_append

/-- No bit leaves an empty remainder at the top, so the polynomial never comes in. -/
@[simp] theorem crcShift_zero (poly : Byte) : crcShift poly 0#8 = 0#8 := rfl

@[simp] theorem crcByte_zero (poly : Byte) : crcByte poly 0#8 0#8 = 0#8 := by simp [crcByte, Nat.repeat]

theorem crc8_zeros (poly : Byte) (n : Nat) : crc8 poly 0#8 (List.replicate n 0#8) = 0#8 := by
  induction n with
  | zero => rfl
  | succ n ih => rw [List.replicate_succ, crc8_cons, crcByte_zero, ih]

/-- Settles O43: the CRC is a fold over the bytes, an empty remainder stays empty under zeros, and the three tabled values
are closed terms. -/
theorem crcComposesAndHasTheTabledValues : Obligations.CrcComposesAndHasTheTabledValues :=
  ⟨crc8_nil, crc8_zeros, crc8_append, by decide, by decide, by decide +kernel⟩

/-! What the Decoder finds when the last byte of a frame comes (41_decoder.md R93 to R103). -/

/-- The CRC over type and payload of the frame whose CRC byte comes next (41_decoder.md R96). -/
def spanCrc (s : State) : Byte :=
  crc8 s.params.crcPoly 0#8 ((List.range' 2 (s.exp - 3)).map (byteAt s))

/-- It is the CRC byte a sender gives a frame of this type and payload (30_encoding.md R67). -/
theorem spanCrc_eq_frameCrc {s : State} (hlong : 4 ≤ s.exp) :
    spanCrc s = frameCrc s.params.crcPoly (byteAt s 2) ((List.range' 3 (s.exp - 4)).map (byteAt s)) := by
  have hspan : s.exp - 3 = s.exp - 4 + 1 := by omega
  rw [spanCrc, hspan, List.range'_succ, List.map_cons]
  rfl

/-- The decoding of a frame with a CRC that fits the buffer, by its CRC, its type and its length. -/
theorem decodeFrame_long {s : State} (hl : 2 ≤ (byteAt s 1).toNat)
    (hfits : (byteAt s 1).toNat + 2 ≤ s.params.bufCap) :
    decodeFrame s = .ok
      (if crc8 s.params.crcPoly 0#8 ((List.range' 2 ((byteAt s 1).toNat - 1)).map (byteAt s)) =
          byteAt s ((byteAt s 1).toNat + 1) then
        if byteAt s 2 = 0x16#8 ∧ (byteAt s 1).toNat = 24 then
          ⟨{ s with slvf := 0 }, .channels, channelWrites ((List.range' 3 22).map (byteAt s))⟩
        else ⟨{ s with slvf := 0 }, .other, []⟩
      else ⟨s, .crc, []⟩) := by
  obtain ⟨d, hd⟩ := decodeFrame_ok hfits (by omega)
  rw [hd]
  rcases decodeFrame_cases hd with ⟨hshort, _⟩ | ⟨_, _, ⟨hcrc, rfl⟩ | ⟨hcrc, ⟨htype, hlen, rfl⟩ | ⟨hother, rfl⟩⟩⟩
  · omega
  · rw [if_neg hcrc]
  · rw [if_pos hcrc, if_pos ⟨htype, hlen⟩]
  · rw [if_pos hcrc, if_neg hother]

/-- The bytes of the frame before the one appended stand as they did. -/
theorem map_byteAt_appended (b : Byte) {s : State} {a n : Nat} (h : a + n ≤ s.pos) :
    (List.range' a n).map (byteAt (appended b s)) = (List.range' a n).map (byteAt s) := by
  refine List.map_congr_left fun i hi => byteAt_appended_other b ?_
  have := List.mem_range'_1.mp hi
  omega

/-- After the length byte, an append leaves what it says: the bytes of the frame beyond its header. -/
theorem length_appended (b : Byte) {s : State} (h : Inv s) (hpos : 2 ≤ s.pos) :
    (byteAt (appended b s) 1).toNat = s.exp - 2 := by
  rw [byteAt_appended_other b (by omega), h.exp_eq_of_two_le hpos, Nat.add_sub_cancel_left]

/-- What the Decoder finds in a frame with a CRC, its last byte `b`, by the CRC, the type and `exp` of the state before
that byte. -/
theorem decodeFrame_appended_last (b : Byte) {s : State} (h : Inv s) (hlong : 4 ≤ s.exp)
    (hlast : s.pos + 1 = s.exp) :
    decodeFrame (appended b s) = .ok
      (if spanCrc s = b then
        if byteAt s 2 = 0x16#8 ∧ s.exp = 26 then
          ⟨{ appended b s with slvf := 0 }, .channels,
            channelWrites ((List.range' 3 22).map (byteAt (appended b s)))⟩
        else ⟨{ appended b s with slvf := 0 }, .other, []⟩
      else ⟨appended b s, .crc, []⟩) := by
  have hcap := h.exp_le_cap
  have hparams : (appended b s).params = s.params := rfl
  have hlen := length_appended b h (by omega)
  have hcrcByte : byteAt (appended b s) (s.exp - 2 + 1) = b := by
    rw [show s.exp - 2 + 1 = s.pos by omega, byteAt_appended_self]
  have htype : byteAt (appended b s) 2 = byteAt s 2 := byteAt_appended_other b (by omega)
  have hsub : s.exp - 2 - 1 = s.exp - 3 := by omega
  have hspan := map_byteAt_appended b (show 2 + (s.exp - 3) ≤ s.pos by omega)
  have hlength : s.exp - 2 = 24 ↔ s.exp = 26 := by omega
  rw [decodeFrame_long (by omega) (by rw [hlen, hparams]; omega)]
  simp only [hlen, hcrcByte, htype, hsub, hspan, hlength, hparams, spanCrc]

/-! The BYTE that completes a frame (40_assembler.md R79, 41_decoder.md R93). -/

/-- A BYTE that completes a frame leaves what the Decoder finds in it. -/
theorem exec_byte_last_of_decodeFrame {s : State} {b : Byte} {d : Decoded} (h : Ready s) (hlast : s.pos + 1 = s.exp)
    (hd : decodeFrame (appended b s) = .ok d) :
    exec (.byte b) s = .next (settle (beginOp d.writes
      { status := .ok, headroom := s.params.bufCap, evt := d.evt, consumed := true } (asmReset d.state))) := by
  obtain ⟨d', hd', hexec⟩ := exec_byte_last b h hlast
  obtain rfl : d' = d := Except.ok.inj (hd'.symm.trans hd)
  exact hexec

/-- Where the Decoder makes no slot write, the BYTE leaves the Decoder's state with the Assembler reset. -/
theorem exec_byte_last_of_no_writes {s u : State} {b : Byte} {e : Evt} (h : Ready s) (hlast : s.pos + 1 = s.exp)
    (hd : decodeFrame (appended b s) = .ok ⟨u, e, []⟩) :
    exec (.byte b) s = .next { asmReset u with
      evr := some (eventWord { status := .ok, headroom := s.params.bufCap, evt := e, consumed := true }) } := by
  have hidle : u.op = none := by
    obtain ⟨v, rfl⟩ := decodeFrame_state hd
    exact h.idle
  rw [exec_byte_last_of_decodeFrame h hlast hd, settle_beginOp_of_no_writes (s := asmReset u) hidle]

/-- A channel frame whose last byte is its CRC puts the channels of its payload in the store, whatever it held
(41_decoder.md R98 to R101). -/
theorem exec_byte_last_of_channels {s : State} (h : Ready s) (hpos : s.pos = 25) (hexp : s.exp = 26)
    (htype : byteAt s 2 = 0x16#8) :
    exec (.byte (spanCrc s)) s = .next { asmReset (appended (spanCrc s) s) with
      slvf := 0
      store := applyWrites (channelWrites ((List.range' 3 22).map (byteAt s))) s.store
      evr := some (eventWord
        { status := .ok, headroom := s.params.bufCap, evt := .channels, consumed := true }) } := by
  have hlast : s.pos + 1 = s.exp := by omega
  have hd := decodeFrame_appended_last (spanCrc s) h.inv (by omega) hlast
  rw [if_pos rfl, if_pos ⟨htype, hexp⟩, map_byteAt_appended _ (by omega)] at hd
  rw [exec_byte_last_of_decodeFrame h hlast hd, settle_beginOp]
  simp [appended, asmReset, h.idle]

/-- Settles O49: the completing byte is the frame's CRC, so the channels of the payload land in the store, and unpacking
inverts the packing. -/
theorem channelFrameRoundTrip : Obligations.ChannelFrameRoundTrip := by
  intro s cs h hcs hpos hexp htype hpayload
  have hcrc : spanCrc s = frameCrc s.params.crcPoly 0x16#8 (packChannels cs) := by
    rw [spanCrc_eq_frameCrc (by omega), htype, hexp, hpayload]
  have hexec := exec_byte_last_of_channels h hpos hexp htype
  rw [hcrc, hpayload] at hexec
  refine ⟨_, hexec, fun i hi => ?_, rfl, rfl, rfl, rfl⟩
  rw [← unpack_packChannels hcs i hi]
  exact applyWrites_channelWrites _ _ i

/-- Settles O21: a length byte 0 completes its frame at once, a length byte 1 with the byte after it. -/
theorem shortFrameIsDiscarded : Obligations.ShortFrameIsDiscarded := by
  refine ⟨fun s h hpos => ?_, fun s b h hpos hexp => ?_⟩
  · have hfits : ¬2 + (0#8 : Byte).toNat > s.params.bufCap := by
      have := h.inv.bufCap_ge
      simp only [BitVec.toNat_zero]
      omega
    rw [lengthByteBoundsTheFrame s 0#8 h hpos, if_neg hfits, if_pos rfl]
  · have hcap : 1 < (appended b s).params.bufCap := Nat.lt_of_lt_of_le (by decide) h.inv.bufCap_ge
    have hlen : (byteAt (appended b s) 1).toNat < 2 := by
      rw [length_appended b h.inv (by omega), hexp]
      decide
    rw [exec_byte_last_of_no_writes h (by omega) (decodeFrame_short hcap hlen), ← hpos]
    rfl

/-- Settles O22: on a mismatch the Decoder leaves the state as the append did. -/
theorem crcMismatchIsDiscarded : Obligations.CrcMismatchIsDiscarded := by
  intro s b h hlong hlast (hcrc : spanCrc s ≠ b)
  have hd := decodeFrame_appended_last b h.inv hlong hlast
  rw [if_neg hcrc] at hd
  exact exec_byte_last_of_no_writes h hlast hd

/-- Settles O23: the CRC matches and the dispatch finds no channel frame. -/
theorem otherFrameClearsOnlySlvf : Obligations.OtherFrameClearsOnlySlvf := by
  intro s b h hlong hlast (hcrc : spanCrc s = b) hother
  have hd := decodeFrame_appended_last b h.inv hlong hlast
  rw [if_pos hcrc, if_neg hother] at hd
  exact exec_byte_last_of_no_writes h hlast hd

end Sys2Proof.Machine

/-! The Supervisor (42_supervisor.md): the state a TICK of a bound block leaves, and what any number of them leaves. -/

namespace Sys2Proof.Machine

/-! One TICK (42_supervisor.md R107). -/

theorem resyncCheck_eq (s : State) :
    resyncCheck s =
      ({ s with
          slb := satInc s.params s.slb
          pos := if satInc s.params s.slb > s.params.resyncLimit then 0 else s.pos
          exp := if satInc s.params s.slb > s.params.resyncLimit then s.params.bufCap else s.exp },
        decide (satInc s.params s.slb > s.params.resyncLimit)) := by
  unfold resyncCheck
  by_cases hfires : satInc s.params s.slb > s.params.resyncLimit
  · simp [hfires, asmReset]
  · simp [hfires]

/-- The slot writes of a link-loss check that fires set every slot to `TIMEOUT`, whatever it held
(42_supervisor.md R110). -/
theorem applyWrites_failsafe (c : Prop) [Decidable c] (st : Store) :
    applyWrites (if c then everySlot .timeout else []) st = if c then Vector.replicate 16 .timeout else st := by
  split
  · exact applyWrites_everySlot .timeout st
  · rfl

/-- The state a TICK leaves on a bound block (42_supervisor.md R107). -/
def ticked (s : State) : State :=
  { s with
    slb := satInc s.params s.slb
    slvf := satInc s.params s.slvf
    pos := if satInc s.params s.slb > s.params.resyncLimit then 0 else s.pos
    exp := if satInc s.params s.slb > s.params.resyncLimit then s.params.bufCap else s.exp
    store := if satInc s.params s.slvf > s.params.failsafeLimit then Vector.replicate 16 .timeout else s.store
    evr := some (eventWord
      { status := .ok
        headroom :=
          if satInc s.params s.slb > s.params.resyncLimit then s.params.bufCap else s.params.bufCap - s.pos
        resync := decide (satInc s.params s.slb > s.params.resyncLimit)
        failsafe := decide (satInc s.params s.slvf > s.params.failsafeLimit) }) }

theorem settle_boundTick {s : State} (hi : s.op = none) : settle (boundTick s) = ticked s := by
  simp only [boundTick, resyncCheck_eq, failsafeCheck, settle_beginOp, headroom, decide_eq_true_eq,
    applyWrites_failsafe, sub_ite, Nat.sub_zero, ticked, hi]

/-! Each check as what it does when the counter the TICK leaves is above its limit. -/

theorem ticked_pos (s : State) :
    (ticked s).pos = if s.params.resyncLimit < (ticked s).slb then 0 else s.pos := rfl

theorem ticked_exp (s : State) :
    (ticked s).exp = if s.params.resyncLimit < (ticked s).slb then s.params.bufCap else s.exp := rfl

theorem ticked_store (s : State) :
    (ticked s).store =
      if s.params.failsafeLimit < (ticked s).slvf then Vector.replicate 16 .timeout else s.store := rfl

theorem slb_le_ticked (s : State) : s.slb ≤ (ticked s).slb := le_satInc s.params s.slb

theorem slvf_le_ticked (s : State) : s.slvf ≤ (ticked s).slvf := le_satInc s.params s.slvf

theorem exec_tick_of_bound {s : State} (hi : s.op = none) (hb : s.bound = true) :
    exec .tick s = .next (ticked s) :=
  settle_boundTick hi ▸ wholeOp_of_ok (f := beginTick) hi (if_pos hb)

/-- Settles O26: unbound, TICK is the UNBOUND response; bound, it leaves `ticked s`. -/
theorem tickRunsBothChecks : Obligations.TickRunsBothChecks := by
  intro s hi
  split
  case isTrue hb =>
    have hbegin : beginTick s = .ok (beginOp [] { status := .unbound, headroom := headroom s } s) := by
      simp [beginTick, hb]
    rw [show exec .tick s = _ from wholeOp_of_ok hi hbegin, settle_beginOp_of_no_writes hi, headroom]
  case isFalse hb => exact exec_tick_of_bound hi (Bool.eq_true_of_not_eq_false hb)

/-- Settles O27: a TICK that answers changes nothing, or increments both counters with saturation. -/
theorem supervisorNeverClearsACounter : Obligations.SupervisorNeverClearsACounter := by
  intro s t htick
  by_cases hi : s.op = none
  · rw [tickRunsBothChecks s hi] at htick
    split at htick
    case isTrue =>
      cases htick
      exact ⟨Nat.le_refl _, Nat.le_refl _⟩
    case isFalse =>
      cases htick
      exact ⟨slb_le_ticked s, slvf_le_ticked s⟩
  · rw [show exec .tick s = .next s from wholeOp_of_busy hi] at htick
    cases htick
    exact ⟨Nat.le_refl _, Nat.le_refl _⟩

/-! Saturation (42_supervisor.md R114). -/

theorem satInc_eq_ite {p : Params} {c : Nat} (h : c ≤ p.counterMax) :
    satInc p c = if c = p.counterMax then c else c + 1 := by
  split
  case isTrue hmax => exact satInc_of_ge (Nat.le_of_eq hmax.symm)
  case isFalse hmax => exact satInc_of_lt (Nat.lt_of_le_of_ne h hmax)

/-- Settles O28: what `satInc` does below and at its bound, and that it never goes down. -/
theorem timeoutsStayFiredUnderTicks : Obligations.TimeoutsStayFiredUnderTicks := by
  intro s h
  refine ⟨ticked s, exec_tick_of_bound h.idle h.bound, satInc_eq_ite h.inv.slb_le, satInc_eq_ite h.inv.slvf_le,
    fun hgap => ?_, fun hlost => ?_⟩
  · exact Nat.lt_of_lt_of_le hgap (slb_le_ticked s)
  · exact Nat.lt_of_lt_of_le hlost (slvf_le_ticked s)

/-- Counting up to the bound from a number that has been cut at the bound. -/
theorem satInc_min (p : Params) (c : Nat) : satInc p (min c p.counterMax) = min (c + 1) p.counterMax := by
  unfold satInc
  split <;> omega

/-- A legal limit is below the value at which its counter saturates (00_scope.md R8). -/
theorem Inv.limits_lt_counterMax {s : State} (h : Inv s) :
    s.params.resyncLimit < s.params.counterMax ∧ s.params.failsafeLimit < s.params.counterMax := by
  have hlegal := h.params_legal
  simp only [Params.legal, Params.resyncLimitLegal, Params.failsafeLimitLegal, Bool.and_eq_true,
    decide_eq_true_eq] at hlegal
  obtain ⟨⟨-, hresync⟩, hfailsafe⟩ := hlegal
  unfold Params.counterMax
  omega

/-! Several TICKs (42_supervisor.md R111). -/

/-- What every TICK carries over to the next holds of `n` TICKs. `P k` is what holds after `k` of them. -/
theorem runTicks_reaches {P : Nat → State → Prop}
    (hstep : ∀ k s, P k s → ∃ t, exec .tick s = .next t ∧ P (k + 1) t) (n k : Nat) (s : State) (h : P k s) :
    ∃ t, runTicks n s = .next t ∧ P (k + n) t := by
  induction n generalizing k s with
  | zero => exact ⟨s, rfl, h⟩
  | succ n ih =>
    obtain ⟨t, htick, ht⟩ := hstep k s h
    obtain ⟨u, hrun, hu⟩ := ih (k + 1) t ht
    refine ⟨u, ?_, (by omega : k + 1 + n = k + (n + 1)) ▸ hu⟩
    simp only [runTicks, htick, hrun]

/-- `t` is where `n` TICKs lead from `s`: the counters have grown by `n` up to saturation, and each check has done its
work when its counter is above its limit. -/
structure TicksPassed (s : State) (n : Nat) (t : State) : Prop where
  bound : t.bound = true
  idle : t.op = none
  params : t.params = s.params
  slb : t.slb = min (s.slb + n) s.params.counterMax
  slvf : t.slvf = min (s.slvf + n) s.params.counterMax
  pos : t.pos = if s.params.resyncLimit < t.slb then 0 else s.pos
  exp : t.exp = if s.params.resyncLimit < t.slb then s.params.bufCap else s.exp
  store : t.store = if s.params.failsafeLimit < t.slvf then Vector.replicate 16 .timeout else s.store

/-- Before the first TICK the invariant says that the checks have done their work. -/
theorem TicksPassed.zero {s : State} (h : Ready s) : TicksPassed s 0 s where
  bound := h.bound
  idle := h.idle
  params := rfl
  slb := (Nat.min_eq_left h.inv.slb_le).symm
  slvf := (Nat.min_eq_left h.inv.slvf_le).symm
  pos := by
    split
    case isTrue hgap => exact h.inv.gap_idle hgap
    case isFalse => rfl
  exp := by
    split
    case isTrue hgap =>
      have hpos := h.inv.gap_idle hgap
      exact h.inv.exp_unknown (by omega)
    case isFalse => rfl
  store := by
    split
    case isTrue hlost =>
      have hstore := h.inv.outage_timeout hlost
      rwa [settle_of_idle h.idle] at hstore
    case isFalse => rfl

/-- What is set while a counter is above a limit stays set when the counter grows. -/
theorem ite_limit_lt_latch {α : Sort _} {l c c' : Nat} (h : c ≤ c') (a b : α) :
    (if l < c' then a else if l < c then a else b) = if l < c' then a else b := by
  split
  · rfl
  · rw [if_neg (by omega)]

theorem TicksPassed.tick {s t : State} {n : Nat} (h : TicksPassed s n t) :
    ∃ u, exec .tick t = .next u ∧ TicksPassed s (n + 1) u := by
  refine ⟨ticked t, exec_tick_of_bound h.idle h.bound, h.bound, h.idle, h.params, ?slb, ?slvf, ?pos, ?exp, ?store⟩
  case slb => simp only [ticked, h.params, h.slb, satInc_min, Nat.add_assoc]
  case slvf => simp only [ticked, h.params, h.slvf, satInc_min, Nat.add_assoc]
  case pos => rw [ticked_pos, h.params, h.pos, ite_limit_lt_latch (slb_le_ticked t)]
  case exp => rw [ticked_exp, h.params, h.exp, ite_limit_lt_latch (slb_le_ticked t)]
  case store => rw [ticked_store, h.params, h.store, ite_limit_lt_latch (slvf_le_ticked t)]

theorem runTicks_of_ready {s : State} (h : Ready s) (n : Nat) :
    ∃ t, runTicks n s = .next t ∧ TicksPassed s n t := by
  obtain ⟨t, hrun, ht⟩ := runTicks_reaches (P := TicksPassed s) (fun _ _ hk => hk.tick) n 0 s (.zero h)
  exact ⟨t, hrun, Nat.zero_add n ▸ ht⟩

/-- A counter that starts at 0 has passed a limit below its bound when more TICKs than the limit have passed. -/
theorem limit_lt_count_iff {l n m : Nat} (hl : l < m) : l < min (0 + n) m ↔ l + 1 ≤ n := by omega

/-- Settles O29: after `n` TICKs each counter that started at 0 stands at `n` up to saturation, and its check has done
its work when that is above the limit. -/
theorem timeoutsFireOnTheTickAfterTheLimit : Obligations.TimeoutsFireOnTheTickAfterTheLimit := by
  intro s n h
  obtain ⟨hresync, hfailsafe⟩ := h.inv.limits_lt_counterMax
  obtain ⟨t, hrun, ht⟩ := runTicks_of_ready h n
  refine ⟨t, hrun, fun hslvf => ?failsafe, fun hslb => ?resync⟩
  case failsafe =>
    have hfired : s.params.failsafeLimit < t.slvf ↔ s.params.failsafeLimit + 1 ≤ n := by
      rw [ht.slvf, hslvf, limit_lt_count_iff hfailsafe]
    rw [ht.store]
    exact ⟨fun hn => if_neg (by omega), fun hn => if_pos (hfired.mpr hn)⟩
  case resync =>
    have hfired : s.params.resyncLimit < t.slb ↔ s.params.resyncLimit + 1 ≤ n := by
      rw [ht.slb, hslb, limit_lt_count_iff hresync]
    rw [ht.pos, ht.exp]
    refine ⟨fun hn => ?_, fun hn => ?_⟩
    · have hquiet : ¬s.params.resyncLimit < t.slb := by omega
      exact ⟨if_neg hquiet, if_neg hquiet⟩
    · exact ⟨if_pos (hfired.mpr hn), if_pos (hfired.mpr hn)⟩

end Sys2Proof.Machine

/-! The lifecycle of the Channel Store (43_store_lifecycle.md): READ and INIT, the three writers of the store, and the
answer to an illegal word on either port. -/

namespace Sys2Proof.Machine

/-! READ (43_store_lifecycle.md R119). -/

theorem slotIndex_of_ge {idx : Byte} (h : 16 ≤ idx.toNat) : slotIndex idx = none :=
  dif_neg (Nat.not_lt.mpr h)

theorem readSlot_of_ge {idx : Byte} (h : 16 ≤ idx.toNat) (s : State) : readSlot idx s = .invalidIndex := by
  simp [readSlot, slotIndex_of_ge h]

/-- Settles O32: an index names a slot, whose response has the layout of `readWord_slot_eq_or`, or none. -/
theorem readReturnsTheSlotOrInvalidIndex : Obligations.ReadReturnsTheSlotOrInvalidIndex := by
  intro s
  refine ⟨fun i => ?slot, fun idx hidx => ?invalid⟩
  case slot => rw [exec_read_slot, readWord_slot_eq_or]
  case invalid =>
    rw [exec_read, readSlot_of_ge hidx]
    rfl

/-! INIT (43_store_lifecycle.md R122). -/

/-- Settles O17: the sixteen slot writes of INIT leave `NO_DRIVER` everywhere, whatever the store held. -/
theorem initBindsAndInitialises : Obligations.InitBindsAndInitialises := by
  intro s hi
  rw [exec_init_of_idle hi, settle_beginOp, applyWrites_everySlot, ← hi]
  rfl

/-! Who writes the store (43_store_lifecycle.md R121). -/

/-- A BYTE of a bound block opens the slot writes its Decoder made, and reports that Decoder's outcome. -/
theorem boundByte_eq_ok_writesAsReported {b : Byte} {s u : State} (h : boundByte b s = .ok u) :
    ∃ (d : Decoded) (r : EventResponse), u = beginOp d.writes r d.state ∧ r.evt = d.evt ∧ d.WritesAsReported s := by
  unfold boundByte at h
  split at h
  case h_1 => cases h
  case h_2 s1 happ =>
    obtain ⟨_, rfl⟩ := append_eq_ok.mp happ
    split at h
    case h_1 => cases h
    case h_2 s2 evt hcap =>
      obtain ⟨hstore, hevt⟩ := captureLength_store_evt hcap
      split at h
      case h_1 => cases h
      case h_2 d hd =>
        obtain ⟨hkept, hall, hnone⟩ := complete_writesAsReported hevt hd
        cases h
        exact ⟨d, _, rfl, rfl, hkept.trans hstore, hall, hnone⟩

/-- A BYTE that changes the store reports CHANNELS: any other outcome makes no slot write (41_decoder.md R101). -/
theorem exec_byte_reports_channels {b : Byte} {s t : State} (h : exec (.byte b) s = .next t)
    (hne : t.store ≠ s.store) : ∃ r, t.evr = some (eventWord r) ∧ r.evt = .channels := by
  rcases wholeOp_eq_next.mp (show wholeOp (beginByte b) s = .next t from h) with ⟨_, rfl⟩ | ⟨_, u, hu, rfl⟩
  · exact absurd rfl hne
  · unfold beginByte at hu
    split at hu
    case isTrue =>
      obtain ⟨d, r, rfl, hr, hkept, _, hnone⟩ := boundByte_eq_ok_writesAsReported hu
      refine ⟨r, rfl, ?_⟩
      by_contra hquiet
      rw [settle_beginOp, hnone (hr ▸ hquiet)] at hne
      exact hne hkept
    case isFalse =>
      cases hu
      exact absurd rfl hne

/-- A TICK that changes the store reports failsafe (42_supervisor.md R110). -/
theorem exec_tick_reports_failsafe {s t : State} (h : exec .tick s = .next t) (hne : t.store ≠ s.store) :
    ∃ r, t.evr = some (eventWord r) ∧ r.failsafe = true := by
  by_cases hi : s.op = none
  · rw [tickRunsBothChecks s hi] at h
    split at h
    case isTrue =>
      cases h
      exact absurd rfl hne
    case isFalse =>
      cases h
      refine ⟨_, rfl, decide_eq_true ?_⟩
      by_contra hquiet
      exact hne (if_neg hquiet)
  · rw [show exec .tick s = .next s from wholeOp_of_busy hi] at h
    cases h
    exact absurd rfl hne

/-- Settles O41, command by command; READ writes no slot. -/
theorem storeHasThreeWriters : Obligations.StoreHasThreeWriters := by
  intro i s t h hne
  cases i with
  | init => exact .inl rfl
  | byte b =>
    obtain ⟨r, hevr, hevt⟩ := exec_byte_reports_channels h hne
    exact .inr (.inl ⟨b, r, rfl, hevr, hevt⟩)
  | tick => exact .inr (.inr ⟨rfl, exec_tick_reports_failsafe h hne⟩)
  | read idx =>
    cases h
    exact absurd rfl hne

/-! A word that alone waits (60_exceptions.md R131, R133). -/

theorem enabled_of_event_only {s : State} {r : Requester} (hi : s.op = none) (hread : s.readReq = [])
    (hr : waiting r s ≠ []) (hother : ∀ q, q ≠ r → waiting q s = []) : enabled s = [.accept r] := by
  have hkeep : ∀ q, (!(waiting q s).isEmpty) = decide (q = r) := fun q => by
    by_cases hq : q = r
    · simp [hq, hr]
    · simp [hq, hother q hq]
  simp only [enabled, eventActions, readActions, hi, hread, hkeep]
  cases r <;> rfl

theorem enabled_of_read_only {s : State} (hi : s.op = none) (hevent : ∀ q, waiting q s = [])
    (hr : s.readReq ≠ []) : enabled s = [.serveRead] := by
  simp [enabled, eventActions, readActions, hi, hevent, hr]

/-- What alone can be done is done, whatever the choices. -/
theorem step_of_enabled_singleton {s : State} {a : Action} (h : enabled s = [a]) : step s = perform a s := by
  simp [step, stepWith, h]

/-! Illegal words (43_store_lifecycle.md R125). -/

theorem decodeOn_event_eq_error {w : CommandWord} (hinit : w &&& 0xFFFF#16 ≠ 0x1000#16)
    (hbyte : w &&& 0xFF00#16 ≠ 0x2000#16) (htick : w &&& 0xFFFF#16 ≠ 0x3000#16) :
    ∃ e, decodeOn .event w = .error e := by
  obtain ⟨hi, hb, ht, -, -, -, -, hnoRead, -⟩ := matchAndMaskSelectTheRow w
  refine decodeOn_eq_error_iff.mpr fun i hd => ?_
  cases i with
  | init => exact hinit (hi.mp hd)
  | byte b => exact hbyte (hb.mp ⟨b, hd⟩)
  | tick => exact htick (ht.mp hd)
  | read idx => exact hnoRead _ hd idx rfl

theorem decodeOn_read_eq_error {w : CommandWord} (hread : w &&& 0xFF00#16 ≠ 0x4000#16) :
    ∃ e, decodeOn .read w = .error e := by
  obtain ⟨-, -, -, hr, -, -, -, -, honlyRead⟩ := matchAndMaskSelectTheRow w
  refine decodeOn_eq_error_iff.mpr fun i hd => ?_
  obtain ⟨idx, rfl⟩ := honlyRead i hd
  exact hread (hr.mp ⟨idx, hd⟩)

/-- An operation accepted on an idle port completes to what its start completes to, and is complete at once when no READ
waits (log 7). -/
theorem runOp_of_ok {f : State → Except Fault State} {s u : State} (hi : s.op = none) (hf : f s = .ok u) :
    ∃ t, runOp f s = .next t ∧ settle t = settle u ∧ (s.readReq = [] → t = settle u) := by
  by_cases hread : s.readReq = []
  · exact ⟨settle u, by simp [runOp, hread, wholeOp_of_ok hi hf], settle_settle u, fun _ => rfl⟩
  · exact ⟨u, by simp [runOp, hread, openOp, hi, hf], rfl, fun h => absurd h hread⟩

/-- The ILLEGAL response: only status and headroom are not 0 (30_encoding.md R65). -/
theorem eventWord_illegal {n : Nat} (h : n < 512) :
    eventWord { status := .illegal, headroom := n } = 0xC0000000#32 ||| (BitVec.ofNat 32 n <<< 16) := by
  have hroom : n % 2 ^ 9 = n := Nat.mod_eq_of_lt h
  have hwide : n % 2 ^ 32 = n := by omega
  have hshift : n <<< 16 % 2 ^ 32 = n <<< 16 := by omega
  apply BitVec.eq_of_toNat_eq
  calc (eventWord { status := .illegal, headroom := n }).toNat
      = (3 <<< 5 <<< 9 ||| n) <<< 16 := by
        simp only [eventWord, statusCode, evtCode, BitVec.toNat_append, BitVec.toNat_ofNat, BitVec.toNat_ofBool,
          Bool.toNat_false, Nat.zero_mod, Nat.or_zero, hroom, ← Nat.shiftLeft_add]
    _ = 3 <<< 30 ||| n <<< 16 := by rw [Nat.shiftLeft_or_distrib, ← Nat.shiftLeft_add, ← Nat.shiftLeft_add]
    _ = (0xC0000000#32 ||| (BitVec.ofNat 32 n <<< 16)).toNat := by
        rw [BitVec.toNat_or, BitVec.toNat_shiftLeft, BitVec.toNat_ofNat, BitVec.toNat_ofNat, hwide, hshift]
        rfl

theorem Inv.bufCap_le {s : State} (h : Inv s) : s.params.bufCap ≤ 257 := by
  have hlegal := h.params_legal
  simp only [Params.legal, Params.bufCapLegal, Bool.and_eq_true, decide_eq_true_eq] at hlegal
  omega

/-- The room left never exceeds the buffer, so the nine bits of its field hold it (30_encoding.md R65). -/
theorem Inv.headroom_lt {s : State} (h : Inv s) : headroom s < 512 := by
  have hcap := h.bufCap_le
  unfold headroom
  omega

/-- A requester's illegal word, once its operation is complete, has got its response and changed nothing else; no READ
waiting, it is complete at once. -/
theorem perform_accept_illegal {s : State} {r : Requester} {w : CommandWord} {ws : List CommandWord} (hinv : Inv s)
    (hi : s.op = none) (hwait : waiting r s = w :: ws) (hillegal : ∃ e, decodeOn .event w = .error e) :
    ∃ t, perform (.accept r) s = .next t ∧
      settle t = { setWaiting r ws s with
        evr := some (0xC0000000#32 ||| (BitVec.ofNat 32 (s.params.bufCap - s.pos) <<< 16)) } ∧
      (s.readReq = [] → t = settle t) := by
  obtain ⟨e, he⟩ := hillegal
  have hroom : headroom (setWaiting r ws s) = headroom s := by simp [headroom]
  have hidle : (setWaiting r ws s).op = none := by rw [setWaiting_op, hi]
  obtain ⟨t, hrun, hsettle, hwhole⟩ := runOp_of_ok (f := beginIllegal) hidle rfl
  refine ⟨t, ?_, ?_, fun hread => ?_⟩
  · simp only [perform, hwait, acceptEvent, he, hrun]
  · rw [hsettle, settle_beginOp_of_no_writes hidle, hroom, eventWord_illegal hinv.headroom_lt, headroom]
  · rw [hsettle]
    exact hwhole (by rw [setWaiting_readReq, hread])

/-- The consumer's illegal word gets its response and changes nothing else. -/
theorem perform_serveRead_illegal {s : State} {w : CommandWord} {ws : List CommandWord} (hreq : s.readReq = w :: ws)
    (hillegal : ∃ e, decodeOn .read w = .error e) :
    perform .serveRead s = .next { s with readReq := ws, rdr := some 0xE000#16 } := by
  obtain ⟨e, he⟩ := hillegal
  simp only [perform, hreq, acceptRead, he]
  rfl

/-- Settles O9: the masks leave no row of the port, and a word that alone waits is the one the step accepts. -/
theorem illegalWordOnlyGetsItsResponse : Obligations.IllegalWordOnlyGetsItsResponse := by
  refine ⟨?eventStep, ?readStep, ?eventAction, ?readAction⟩
  case eventStep =>
    intro s r w ws hinv hi hread hwait hother hinit hbyte htick
    obtain ⟨t, hperf, hsettle, hwhole⟩ :=
      perform_accept_illegal hinv hi hwait (decodeOn_event_eq_error hinit hbyte htick)
    rw [step_of_enabled_singleton (enabled_of_event_only hi hread (by simp [hwait]) hother), hperf, hwhole hread,
      hsettle]
  case readStep =>
    intro s w ws hi hevent hreq hw
    rw [step_of_enabled_singleton (enabled_of_read_only hi hevent (by simp [hreq]))]
    exact perform_serveRead_illegal hreq (decodeOn_read_eq_error hw)
  case eventAction =>
    intro s r w ws hinv hi hwait hinit hbyte htick
    obtain ⟨t, hperf, hsettle, -⟩ :=
      perform_accept_illegal hinv hi hwait (decodeOn_event_eq_error hinit hbyte htick)
    exact ⟨t, hperf, hsettle⟩
  case readAction =>
    intro s w ws hreq hw
    exact perform_serveRead_illegal hreq (decodeOn_read_eq_error hw)

end Sys2Proof.Machine

/-! Requests waiting together (60_exceptions.md R131), and a BYTE and a TICK in either order. -/

namespace Sys2Proof.Machine

/-! Which of several actions a step takes (00_scope.md R19). -/

theorem two_le_length_enabled {s : State} {a b : Action} (ha : a ∈ enabled s) (hb : b ∈ enabled s) (hne : a ≠ b) :
    2 ≤ (enabled s).length := by
  obtain ⟨i, hi, rfl⟩ := List.getElem_of_mem ha
  obtain ⟨j, hj, rfl⟩ := List.getElem_of_mem hb
  have hij : i ≠ j := fun h => hne (getElem_congr_idx h)
  omega

/-- With two or more actions enabled a step draws one choice and performs the action that it names. -/
theorem stepWith_of_chosen {choice : Nat → Nat} {s : State} {a : Action} (htwo : 2 ≤ (enabled s).length)
    (ha : (enabled s)[choice s.draws % (enabled s).length]? = some a) :
    stepWith choice s = perform a { s with draws := s.draws + 1 } := by
  unfold stepWith
  split
  case h_1 hnil => simp [hnil] at htwo
  case h_2 hone => simp [hone] at htwo
  case h_3 x y rest hmany =>
    rw [hmany] at ha
    have hchosen : (x :: y :: rest)[choice s.draws % (rest.length + 2)]? = some a := ha
    rw [List.getD_eq_getElem?_getD, hchosen, Option.getD_some]

/-- Any of two or more enabled actions may be the next. -/
theorem exists_choice_of_mem_enabled {s : State} {a : Action} (htwo : 2 ≤ (enabled s).length) (ha : a ∈ enabled s) :
    ∃ choice, stepWith choice s = perform a { s with draws := s.draws + 1 } := by
  obtain ⟨k, hk, rfl⟩ := List.getElem_of_mem ha
  refine ⟨fun _ => k, stepWith_of_chosen htwo ?_⟩
  rw [Nat.mod_eq_of_lt hk, List.getElem?_eq_getElem hk]

/-- Nothing but one of two or more enabled actions may be the next. -/
theorem exists_mem_enabled_of_choice {s : State} (choice : Nat → Nat) (htwo : 2 ≤ (enabled s).length) :
    ∃ a ∈ enabled s, stepWith choice s = perform a { s with draws := s.draws + 1 } := by
  have hk : choice s.draws % (enabled s).length < (enabled s).length :=
    Nat.mod_lt _ (Nat.lt_of_lt_of_le Nat.two_pos htwo)
  exact ⟨_, List.getElem_mem hk, stepWith_of_chosen htwo (List.getElem?_eq_getElem hk)⟩

/-! A TICK keeps the block ready for the next command (10_state.md R33). -/

/-- A TICK keeps the invariant clause by clause: a check that fires makes the clauses of its own timeout true. -/
theorem inv_ticked {s : State} (h : Ready s) : Inv (ticked s) where
  params_legal := h.inv.params_legal
  pos_lt_exp := by
    rw [ticked_pos, ticked_exp]
    split
    case isTrue => exact Nat.lt_of_lt_of_le (by decide) h.inv.bufCap_ge
    case isFalse => exact h.inv.pos_lt_exp
  exp_le_cap := by
    rw [ticked_exp]
    split
    case isTrue => exact Nat.le_refl _
    case isFalse => exact h.inv.exp_le_cap
  exp_unknown := by
    rw [ticked_pos, ticked_exp]
    split
    case isTrue => exact fun _ => rfl
    case isFalse => exact h.inv.exp_unknown
  exp_known := by
    rw [ticked_pos, ticked_exp]
    split
    case isTrue => exact fun hpos => absurd hpos (by decide)
    case isFalse => exact h.inv.exp_known
  buf_wf := h.inv.buf_wf
  buf_range := h.inv.buf_range
  buf_written := by
    rw [ticked_pos]
    split
    case isTrue => exact fun i hi => absurd hi (Nat.not_lt_zero i)
    case isFalse => exact h.inv.buf_written
  slb_le := satInc_le_max h.inv.slb_le
  slvf_le := satInc_le_max h.inv.slvf_le
  gap_idle := fun hgap => if_pos hgap
  outage_timeout := fun hlost => (congrArg State.store (settle_of_idle (s := ticked s) h.idle)).trans (if_pos hlost)
  unbound_idle := fun hb => absurd (h.bound.symm.trans hb) (by decide)
  writes_nodup := fun p hp => absurd (h.idle.symm.trans hp) nofun
  busy_silent := fun hop => absurd h.idle hop

theorem Ready.ticked {s : State} (h : Ready s) : Ready (ticked s) where
  inv := inv_ticked h
  bound := h.bound
  idle := h.idle

/-! The example of 60_exceptions.md R131. -/

/-- A TICK takes a counter at or below the resync limit up by one: saturation is further off (00_scope.md R8). -/
theorem Inv.slb_ticked_of_le {s : State} (h : Inv s) (hle : s.slb ≤ s.params.resyncLimit) :
    (ticked s).slb = s.slb + 1 :=
  satInc_of_lt (Nat.lt_of_le_of_lt hle h.limits_lt_counterMax.1)

theorem pos_of_asmState_len {s : State} (h : asmState s = .len) : s.pos = 1 := by
  by_contra hpos
  simp only [asmState, if_neg hpos] at h
  split at h <;> cases h

/-- TICK then BYTE when the TICK is the one that resyncs: the byte starts a new frame. -/
theorem tick_then_byte_starts_a_frame {s : State} (b : Byte) (h : Ready s) (hslb : s.slb = s.params.resyncLimit) :
    ∃ t u, exec .tick s = .next t ∧ t.slb = s.slb + 1 ∧ t.pos = 0 ∧ exec (.byte b) t = .next u ∧ u.pos = 1 := by
  have hinc : (ticked s).slb = s.slb + 1 := h.inv.slb_ticked_of_le (Nat.le_of_eq hslb)
  have hpos : (ticked s).pos = 0 := if_pos (show s.params.resyncLimit < (ticked s).slb by omega)
  obtain ⟨u, hbyte, -, hlen, -⟩ := exec_byte_from_addr b h.ticked hpos
  exact ⟨_, u, exec_tick_of_bound h.idle h.bound, hinc, hpos, hbyte, pos_of_asmState_len hlen⟩

/-- BYTE then TICK within a frame: the byte has cleared `slb`, so that the TICK keeps the partial frame. -/
theorem byte_then_tick_keeps_the_frame {s : State} (b : Byte) (h : Ready s) (hlimit : 1 ≤ s.params.resyncLimit)
    (hne : s.pos ≠ 1) (hlast : s.pos + 1 ≠ s.exp) :
    ∃ t u, exec (.byte b) s = .next t ∧ t.pos = s.pos + 1 ∧ t.slb = 0 ∧ byteAt t s.pos = b ∧
      exec .tick t = .next u ∧ u.slb = 1 ∧ u.pos = s.pos + 1 ∧ u.exp = s.exp ∧ u.buf = t.buf := by
  have hinc : satInc s.params 0 = 1 := satInc_of_lt (Nat.zero_lt_of_lt h.inv.limits_lt_counterMax.1)
  have hquiet : ¬s.params.resyncLimit < satInc s.params 0 := by omega
  exact ⟨_, _, exec_byte_within_frame h hne hlast, rfl, rfl, byteAt_of_write rfl,
    exec_tick_of_bound h.idle h.bound, hinc, if_neg hquiet, if_neg hquiet, rfl⟩

/-- Settles O11: the two requesters' acceptances are two enabled actions, of which a choice takes either; in the example
the TICK resyncs exactly when it comes first. -/
theorem waitingRequestsAreServedInAnyOrder : Obligations.WaitingRequestsAreServedInAnyOrder := by
  refine ⟨fun s q r hne hi hq hr => ?orders, fun s b h hlimit hslb hpos hexp => ?observable⟩
  case orders =>
    have hmem : ∀ x, waiting x s ≠ [] → .accept x ∈ enabled s := fun x hx =>
      (mem_enabled_idle hi).mpr (.inl ⟨x, hx, rfl⟩)
    have htwo : 2 ≤ (enabled s).length :=
      two_le_length_enabled (hmem q hq) (hmem r hr) fun h => hne (Action.accept.inj h)
    refine ⟨exists_choice_of_mem_enabled htwo (hmem q hq), exists_choice_of_mem_enabled htwo (hmem r hr),
      fun choice => ?_⟩
    obtain ⟨a, ha, hstep⟩ := exists_mem_enabled_of_choice choice htwo
    rcases (mem_enabled_idle hi).mp ha with ⟨x, hx, rfl⟩ | ⟨hread, rfl⟩
    · exact .inl ⟨x, hx, hstep⟩
    · exact .inr ⟨hread, hstep⟩
  case observable =>
    have htick := tick_then_byte_starts_a_frame b h (by omega)
    have hbyte := byte_then_tick_keeps_the_frame b h (by omega) (by omega) (by omega)
    rw [hslb] at htick
    rw [hpos] at hbyte
    exact ⟨htick, hbyte⟩

end Sys2Proof.Machine

/-! Power-on reset, and the block before its INIT (70_reset_and_hazards.md section 1). -/

namespace Sys2Proof.Machine

/-- Settles O51: every register but the store is what `State.powerOn` writes there, and the default parameters are those
named. -/
theorem powerOnResetLeaves : Obligations.PowerOnResetLeaves :=
  ⟨fun _ _ => ⟨rfl, rfl, rfl, rfl, rfl, fun i => Vector.getElem_replicate i.isLt, rfl⟩, 0, rfl⟩

/-- The `status` of a response is its two top bits (30_encoding.md R65). -/
theorem eventWord_status (r : EventResponse) : (eventWord r).extractLsb' 30 2 = statusCode r.status := by
  simp (disch := omega) only [eventWord, BitVec.extractLsb'_append_eq_of_le, Nat.reduceSub, BitVec.extractLsb'_eq_self]

/-- Settles O52: the store of an unbound block is the one of power-on, and BYTE and TICK only answer UNBOUND. -/
theorem beforeInitOnlyReadsAnswer : Obligations.BeforeInitOnlyReadsAnswer := by
  intro s hinv hb hi
  obtain ⟨-, -, -, -, hstore, -⟩ := hinv.unbound_idle hb
  obtain ⟨hbyte, htick⟩ := beforeInitByteAndTickAreUnbound s hinv hb hi
  obtain ⟨-, hinvalid⟩ := readReturnsTheSlotOrInvalidIndex s
  refine ⟨fun i => ?slot, hinvalid, ?event⟩
  case slot =>
    rw [exec_read_slot, hstore, Fin.getElem_fin, Vector.getElem_replicate]
    rfl
  case event =>
    rintro _ (rfl | ⟨b, rfl⟩)
    · exact ⟨_, htick, eventWord_status _⟩
    · exact ⟨_, hbyte b, eventWord_status _⟩

end Sys2Proof.Machine

/-! The words of a command (30_encoding.md section 2): decoding inverts encoding, both ways, and the words left over are
the listed illegal ones. -/

namespace Sys2Proof

/-- Settles O1: four closed terms. -/
theorem sampleWordsDecode : Obligations.SampleWordsDecode := ⟨rfl, rfl, rfl, rfl⟩

/-- Settles O2: the word of a command decodes to it on the command's own port. -/
theorem decodeOfEncodeIsTheCommand : Obligations.DecodeOfEncodeIsTheCommand :=
  fun _ _ hport => decodeOn_eq_ok_iff_encode.mpr ⟨rfl, of_decide_eq_true hport⟩

/-- Settles O3: the decoder rebuilds a command from the very fields that `encode` puts together. -/
theorem decodedWordIsTheEncoding : Obligations.DecodedWordIsTheEncoding :=
  fun _ _ _ => decodeOn_eq_ok_iff_encode.mp

/-- The words of the table of 30_encoding.md R62, port by port, in terms of their fields. -/
theorem exists_decodeOn_eq_ok_iff {p : Port} {w : CommandWord} :
    (∃ i, decodeOn p w = .ok i) ↔
      fieldRSV w = 0#4 ∧
        ((p = .event ∧ (fieldOPC w = 1#4 ∧ fieldOPD w = 0#8 ∨ fieldOPC w = 2#4 ∨ fieldOPC w = 3#4 ∧ fieldOPD w = 0#8)) ∨
          (p = .read ∧ fieldOPC w = 4#4)) := by
  constructor
  · rintro ⟨i, hi⟩
    obtain ⟨hword, rfl⟩ := decodeOn_eq_ok.mp hi
    obtain ⟨hrsv, hrow⟩ := decodeWord_cases hword
    obtain ⟨hopc, hopd, rfl⟩ | ⟨hopc, rfl⟩ | ⟨hopc, hopd, rfl⟩ | ⟨hopc, rfl⟩ := hrow
    · exact ⟨hrsv, .inl ⟨rfl, .inl ⟨hopc, hopd⟩⟩⟩
    · exact ⟨hrsv, .inl ⟨rfl, .inr (.inl hopc)⟩⟩
    · exact ⟨hrsv, .inl ⟨rfl, .inr (.inr ⟨hopc, hopd⟩)⟩⟩
    · exact ⟨hrsv, .inr ⟨rfl, hopc⟩⟩
  · rintro ⟨hrsv, hrow⟩
    have hfields := commandWord_fields hrsv
    obtain ⟨rfl, ⟨hopc, hopd⟩ | hopc | ⟨hopc, hopd⟩⟩ | ⟨rfl, hopc⟩ := hrow
    · exact ⟨.init, decodeOn_eq_ok_iff_encode.mpr ⟨by rwa [hopc, hopd] at hfields, rfl⟩⟩
    · exact ⟨.byte (fieldOPD w), decodeOn_eq_ok_iff_encode.mpr ⟨by rwa [hopc] at hfields, rfl⟩⟩
    · exact ⟨.tick, decodeOn_eq_ok_iff_encode.mpr ⟨by rwa [hopc, hopd] at hfields, rfl⟩⟩
    · exact ⟨.read (fieldOPD w), decodeOn_eq_ok_iff_encode.mpr ⟨by rwa [hopc] at hfields, rfl⟩⟩

theorem opcode_cases (o : BitVec 4) :
    o = 1#4 ∨ o = 2#4 ∨ o = 3#4 ∨ o = 4#4 ∨
      ((o = 0#4 ∨ 5#4 ≤ o) ∧ o ≠ 1#4 ∧ o ≠ 2#4 ∧ o ≠ 3#4 ∧ o ≠ 4#4) := by
  revert o
  decide

/-- Settles O6: the list is the complement of the table, operation code by operation code. -/
theorem illegalWordsAreTheListed : Obligations.IllegalWordsAreTheListed := by
  intro p w
  rw [decodeOn_eq_error_iff, ← not_exists, exists_decodeOn_eq_ok_iff]
  rcases opcode_cases (fieldOPC w) with hopc | hopc | hopc | hopc | ⟨hreserved, h1, h2, h3, h4⟩
  · cases p <;> simp [hopc, imp_iff_not_or]
  · cases p <;> simp [hopc]
  · cases p <;> simp [hopc, imp_iff_not_or]
  · cases p <;> simp [hopc]
  · simp [h1, h2, h3, h4, ← or_assoc, hreserved]

end Sys2Proof

namespace Sys2Proof.Machine

/-! The event response (30_encoding.md R65). -/

/-- One bit of a word is the field of width one there. -/
theorem getLsbD_eq_of_extractLsb' {w : EventWord} {k : Nat} {b : Bool}
    (h : w.extractLsb' k 1 = BitVec.ofBool b) : w.getLsbD k = b := by
  have hbit := congrArg (BitVec.getLsbD · 0) h
  simpa [BitVec.getLsbD_extractLsb'] using hbit

/-- Cutting a field out of a response drops the fields below it and above it. -/
theorem eventWord_fields (r : EventResponse) :
    (eventWord r).extractLsb' 25 5 = 0#5 ∧
    (eventWord r).extractLsb' 16 9 = BitVec.ofNat 9 r.headroom ∧
    (eventWord r).extractLsb' 12 4 = 0#4 ∧
    (eventWord r).extractLsb' 8 4 = evtCode r.evt ∧
    (eventWord r).extractLsb' 4 4 = 0#4 ∧
    (eventWord r).extractLsb' 3 1 = BitVec.ofBool r.failsafe ∧
    (eventWord r).extractLsb' 2 1 = BitVec.ofBool r.resync ∧
    (eventWord r).extractLsb' 1 1 = 0#1 ∧
    (eventWord r).extractLsb' 0 1 = BitVec.ofBool r.consumed := by
  simp (disch := omega) only [eventWord, BitVec.extractLsb'_append_eq_of_le, BitVec.extractLsb'_append_eq_right,
    Nat.reduceSub, and_self]

/-- Settles O34: the codes are the tabled ones by definition, the fields those of `eventWord_fields`. -/
theorem eventWordHasTheLayout : Obligations.EventWordHasTheLayout := by
  refine ⟨⟨rfl, rfl, rfl⟩, ⟨rfl, rfl, rfl, rfl, rfl, rfl⟩, fun r hroom => ?_⟩
  obtain ⟨hzero5, hheadroom, hzero4, hevt, hzero4', hfailsafe, hresync, hwoke, hconsumed⟩ := eventWord_fields r
  have hfits : ((eventWord r).extractLsb' 16 9).toNat = r.headroom := by
    rw [hheadroom, BitVec.toNat_ofNat, Nat.mod_eq_of_lt hroom]
  exact ⟨eventWord_status r, hzero5, hfits, hzero4, hevt, hzero4', getLsbD_eq_of_extractLsb' hfailsafe,
    getLsbD_eq_of_extractLsb' hresync, getLsbD_eq_of_extractLsb' (b := false) hwoke,
    getLsbD_eq_of_extractLsb' hconsumed⟩

end Sys2Proof.Machine

/-! Steps and operations in progress (20_memory.md sections 5 and 6): what a step does when nothing waits, one request
or a READ beside it, and that an operation in progress ends as the whole operation does. -/

namespace Sys2Proof.Machine

/-! The whole operation (00_scope.md R16). -/

/-- `exec` of an event command is its operation, whole. -/
theorem exec_eq_wholeOp {i : Instr} (hi : i.port = .event) (s : State) : exec i s = wholeOp (beginInstr i) s := by
  cases i with
  | init => rfl
  | byte b => rfl
  | tick => rfl
  | read idx => cases hi

/-- Settles O37: the operation of an event command is only accepted on an idle port. -/
theorem eventCommandWaitsWhileBusy : Obligations.EventCommandWaitsWhileBusy := by
  intro i s hi hbusy
  rw [exec_eq_wholeOp hi]
  exact wholeOp_of_busy hbusy

/-! A step with nothing, or one thing, to do (60_exceptions.md R131, R133). -/

/-- Settles O10: nothing is enabled. -/
theorem idleBlockKeepsItsState : Obligations.IdleBlockKeepsItsState := by
  intro s hi hevent hread
  have hnone : enabled s = [] := by simp [enabled, eventActions, readActions, hi, hevent, hread]
  simp [step, stepWith, hnone]

theorem perform_accept_of_decodeOn {s : State} {r : Requester} {w : CommandWord} {ws : List CommandWord} {i : Instr}
    (hwait : waiting r s = w :: ws) (hd : decodeOn .event w = .ok i) :
    perform (.accept r) s = runEvent i (setWaiting r ws s) := by
  simp only [perform, hwait, acceptEvent, hd]

/-- Settles O7: the acceptance of the word is all that is enabled, and no READ waits to see it in part. -/
theorem stepRunsTheEventCommand : Obligations.StepRunsTheEventCommand := by
  intro s r w ws i hi hread hwait hother hd
  have honly := enabled_of_event_only hi hread (by simp [hwait]) hother
  rw [step_of_enabled_singleton honly, perform_accept_of_decodeOn hwait hd, runEvent, if_pos (by simp [hread])]

/-- Settles O8: the service of the word is all that is enabled. -/
theorem stepRunsTheRead : Obligations.StepRunsTheRead := by
  intro s w ws i hi hevent hreq hd
  have honly := enabled_of_read_only hi hevent (by simp [hreq])
  rw [step_of_enabled_singleton honly]
  simp only [perform, hreq, acceptRead, hd]

/-- Settles O12: the acceptance and the READ are the two things enabled, and the READ that still waits leaves the
accepted command in progress. -/
theorem commandOpensBesideAWaitingRead : Obligations.CommandOpensBesideAWaitingRead := by
  intro s r w ws i hi hread hwait hother hd
  have hopens : perform (.accept r) { s with draws := s.draws + 1 } =
      openOp (beginInstr i) (setWaiting r ws { s with draws := s.draws + 1 }) := by
    rw [perform_accept_of_decodeOn (s := { s with draws := s.draws + 1 }) (by cases r <;> exact hwait) hd, runEvent,
      if_neg (by simpa using hread)]
  have haccept : .accept r ∈ enabled s := (mem_enabled_idle hi).mpr (.inl ⟨r, by simp [hwait], rfl⟩)
  have hserve : .serveRead ∈ enabled s := (mem_enabled_idle hi).mpr (.inr ⟨hread, rfl⟩)
  have htwo := two_le_length_enabled haccept hserve nofun
  rw [← hopens]
  refine ⟨fun choice => ?_, exists_choice_of_mem_enabled htwo haccept, exists_choice_of_mem_enabled htwo hserve⟩
  obtain ⟨a, ha, hstep⟩ := exists_mem_enabled_of_choice choice htwo
  rcases (mem_enabled_idle hi).mp ha with ⟨q, hq, rfl⟩ | ⟨_, rfl⟩
  · obtain rfl : q = r := by_contra fun hne => hq (hother q hne)
    exact .inl hstep
  · exact .inr hstep

/-! A busy event port (20_memory.md section 5). -/

theorem waiting_settle (r : Requester) (s : State) : waiting r (settle s) = waiting r s := by
  cases r <;> simp [waiting]

/-- Settles O16: each thing a busy block can do leaves the requesters' lists, and all but the last leave the operation
in progress. -/
theorem busyPortAcceptsNothing : Obligations.BusyPortAcceptsNothing := by
  intro choice s t p hp hsilent hstep
  obtain ⟨d, ⟨hnil, rfl⟩ | ⟨k, w, hw, rfl⟩ | ⟨w, ws, r, _, rfl⟩⟩ := stepWith_busy_cases hp hstep
  · refine ⟨fun r => waiting_settle r _, .inr ⟨hnil, settle_op _, ?_⟩⟩
    rw [settle_of_busy (s := { s with draws := d }) hp]
  · rw [landWrite_of_write (s := { s with draws := d }) hp hw]
    exact ⟨fun r => rfl, .inl ⟨_, rfl, rfl, hsilent⟩⟩
  · exact ⟨fun r => rfl, .inl ⟨p, hp, rfl, hsilent⟩⟩

/-! The end of an operation in progress (20_memory.md sections 5 and 6). -/

theorem acceptRead_next (w : CommandWord) (s : State) : ∃ t, acceptRead w s = .next t := by
  unfold acceptRead
  split
  case h_1 i hd =>
    obtain ⟨-, hport⟩ := decodeOn_eq_ok.mp hd
    cases i with
    | read idx => exact ⟨_, rfl⟩
    | init => cases hport
    | byte b => cases hport
    | tick => cases hport
  case h_2 => exact ⟨_, rfl⟩

theorem perform_serveRead_next (s : State) : ∃ t, perform .serveRead s = .next t := by
  cases hreq : s.readReq with
  | nil => exact ⟨s, by simp only [perform, hreq]⟩
  | cons w ws =>
    obtain ⟨t, ht⟩ := acceptRead_next w { s with readReq := ws }
    exact ⟨t, by simp only [perform, hreq, ht]⟩

/-- What a busy block can do does not stop it. -/
theorem perform_busy_next {a : Action} {s : State} {p : Pending} (hp : s.op = some p) (ha : a ∈ enabled s) :
    ∃ t, perform a s = .next t := by
  rcases (mem_enabled_busy hp).mp ha with ⟨_, rfl⟩ | ⟨k, _, rfl⟩ | ⟨_, rfl⟩
  · exact ⟨_, rfl⟩
  · exact ⟨_, rfl⟩
  · exact perform_serveRead_next s

theorem stepWith_busy_next (choice : Nat → Nat) {s : State} {p : Pending} (hp : s.op = some p) :
    ∃ t, stepWith choice s = .next t := by
  rcases stepWith_cases choice s with ⟨_, he⟩ | ⟨a, ha, he | he⟩
  · exact ⟨s, he⟩
  · exact he ▸ perform_busy_next hp ha
  · exact he ▸ perform_busy_next (s := { s with draws := s.draws + 1 }) hp ha

/-- Everything an enabled action can lead to: a word is accepted from a requester and its operation opened or run
whole, the operation in progress ends or one of its slot writes lands, or a READ is served. -/
theorem perform_cases {a : Action} {s t : State} (ha : a ∈ enabled s) (h : perform a s = .next t) :
    (s.op = none ∧ ∃ r ws u, (t = u ∨ t = settle u) ∧
      ((∃ i, i.port = .event ∧ beginInstr i (setWaiting r ws s) = .ok u) ∨
        beginIllegal (setWaiting r ws s) = .ok u)) ∨
    t = settle s ∨ (∃ k, t = landWrite k s) ∨ (∃ ws r, t = respondRead r { s with readReq := ws }) := by
  rcases Option.eq_none_or_eq_some s.op with hop | ⟨p, hop⟩
  · rcases (mem_enabled_idle hop).mp ha with ⟨r, hne, rfl⟩ | ⟨hne, rfl⟩
    · obtain ⟨w, ws, hwait⟩ := List.exists_cons_of_ne_nil hne
      simp only [perform, hwait] at h
      obtain ⟨u, ht, hbegin⟩ := acceptEvent_cases (by simpa using hop) h
      refine .inl ⟨hop, r, ws, u, ht, hbegin.imp_left ?_⟩
      rintro ⟨i, _, hport, hu⟩
      exact ⟨i, hport, hu⟩
    · obtain ⟨w, ws, hreq⟩ := List.exists_cons_of_ne_nil hne
      simp only [perform, hreq] at h
      obtain ⟨r, rfl⟩ := acceptRead_cases h
      exact .inr (.inr (.inr ⟨ws, r, rfl⟩))
  · rcases perform_busy_cases hop ha h with ⟨_, rfl⟩ | ⟨k, w, _, rfl⟩ | ⟨w, ws, r, _, rfl⟩
    · exact .inr (.inl rfl)
    · exact .inr (.inr (.inl ⟨k, rfl⟩))
    · exact .inr (.inr (.inr ⟨ws, r, rfl⟩))

/-- The most steps an operation in progress takes to its end: one for each slot write left, one for each READ that
waits, and one for the response. -/
def stepsLeft (p : Pending) (s : State) : Nat := p.writes.length + s.readReq.length + 1

/-- Each step of a busy block ends the operation or brings its end one step nearer. -/
theorem stepWith_busy_progress (choice : Nat → Nat) {s : State} {p : Pending} (hp : s.op = some p) :
    ∃ t, stepWith choice s = .next t ∧ ∀ q, t.op = some q → stepsLeft q t + 1 = stepsLeft p s := by
  obtain ⟨t, hstep⟩ := stepWith_busy_next choice hp
  refine ⟨t, hstep, fun q hq => ?_⟩
  obtain ⟨d, ⟨_, rfl⟩ | ⟨k, w, hw, rfl⟩ | ⟨w, ws, r, hreq, rfl⟩⟩ := stepWith_busy_cases hp hstep
  · simp at hq
  · rw [landWrite_of_write (s := { s with draws := d }) hp hw] at hq ⊢
    cases hq
    have hk : k < p.writes.length := (List.getElem?_eq_some_iff.mp hw).1
    simp only [stepsLeft, List.length_eraseIdx_of_lt hk]
    omega
  · cases hp.symm.trans hq
    simp only [stepsLeft, hreq, respondRead_readReq, List.length_cons]
    omega

theorem runWhileBusy_ends (choice : Nat → Nat) (n : Nat) {s : State} (hn : ∀ p, s.op = some p → stepsLeft p s ≤ n) :
    ∃ u, runWhileBusy choice n s = .next u ∧ u.op = none := by
  induction n generalizing s with
  | zero =>
    refine ⟨s, rfl, Option.eq_none_iff_forall_not_mem.mpr fun p hp => ?_⟩
    exact absurd (hn p hp) (by simp [stepsLeft])
  | succ n ih =>
    cases hp : s.op with
    | none => exact ⟨s, by simp only [runWhileBusy, hp], hp⟩
    | some p =>
      obtain ⟨t, hstep, hless⟩ := stepWith_busy_progress choice hp
      obtain ⟨u, hrun, hu⟩ := ih (s := t) fun q hq => by
        have := hless q hq
        have := hn p hp
        omega
      exact ⟨u, by simp only [runWhileBusy, hp, hstep, hrun], hu⟩

/-- The read port and the draws take no part in the end of an operation. -/
theorem eventSide_settle (rdr : Option ReadWord) (ws : List CommandWord) (d : Nat) (s : State) :
    eventSide (settle { s with rdr := rdr, readReq := ws, draws := d }) = eventSide (settle s) := by
  cases hop : s.op <;> simp [settle, hop, eventSide]

/-- `t` is on the way to the end that `s` is on the way to: its writes name no slot twice, and it completes to what `s`
completes to, up to the read port and the draws. -/
structure SameEnd (s t : State) : Prop where
  nodup : ∀ p, t.op = some p → (p.writes.map Prod.fst).Nodup
  ends : eventSide (settle t) = eventSide (settle s)

theorem stepWith_busy_keeps_sameEnd {choice : Nat → Nat} {s t u : State} {p : Pending} (hp : t.op = some p)
    (hstep : stepWith choice t = .next u) (h : SameEnd s t) : SameEnd s u := by
  obtain ⟨d, ⟨_, rfl⟩ | ⟨k, w, hw, rfl⟩ | ⟨w, ws, r, _, rfl⟩⟩ := stepWith_busy_cases hp hstep
  · refine ⟨fun q hq => by simp at hq, ?_⟩
    rw [settle_settle]
    exact (eventSide_settle t.rdr t.readReq d t).trans h.ends
  · refine ⟨fun q hq => ?_, ?_⟩
    · rw [landWrite_of_write (s := { t with draws := d }) hp hw] at hq
      cases hq
      exact (h.nodup p hp).sublist ((List.eraseIdx_sublist _ _).map _)
    · rw [settle_landWrite (s := { t with draws := d }) h.nodup]
      exact (eventSide_settle t.rdr t.readReq d t).trans h.ends
  · exact ⟨h.nodup, (eventSide_settle _ ws d t).trans h.ends⟩

theorem Opens.nodup {i : Instr} {s t : State} {ws : List (Fin 16 × Slot)} {r : EventResponse} (h : Opens i s t ws r) :
    (ws.map Prod.fst).Nodup := by
  by_cases hall : i = .init ∨ r.evt = .channels ∨ r.failsafe = true
  · exact h.all hall ▸ allSlots_nodup
  · rw [h.none hall]
    exact List.nodup_nil

/-- Settles O14: every step of the run keeps what the operation completes to, and brings its end one step nearer. -/
theorem everyInterleavingEndsAsTheWholeOperation : Obligations.EveryInterleavingEndsAsTheWholeOperation := by
  intro choice i s t hi hidle hopen
  rcases openOp_eq_next.mp hopen with ⟨hbusy, _⟩ | ⟨_, hbegin⟩
  · exact absurd hidle hbusy
  obtain ⟨ws, r, hopens⟩ := beginInstr_opens hi hbegin
  have hstart : SameEnd t t := ⟨fun p hp => by cases hopens.op.symm.trans hp; exact hopens.nodup, rfl⟩
  have hends (n : Nat) (u : State) (hrun : runWhileBusy choice n t = .next u) :
      eventSide (settle u) = eventSide (settle t) :=
    (runWhileBusy_keeps (P := SameEnd t) (fun _ _ _ hp hstep h => stepWith_busy_keeps_sameEnd hp hstep h)
      hstart hrun).ends
  refine ⟨exec_eq_wholeOp hi s ▸ wholeOp_of_ok hidle hbegin, hends, fun p hp => ?_⟩
  obtain ⟨u, hrun, hu⟩ := runWhileBusy_ends choice (stepsLeft p t) (s := t) fun q hq => by
    cases hp.symm.trans hq
    exact Nat.le_refl _
  exact ⟨u, hrun, hu, settle_of_idle hu ▸ hends _ u hrun⟩

end Sys2Proof.Machine

/-! What each command changes and what it leaves: one rule for everything a BYTE of a bound block can do, one for the
start of any event command, and the statements on frames, responses and the two timeout tables that follow from them.
-/

namespace Sys2Proof.Machine

/-! The rule of BYTE (40_assembler.md R76 to R79, 41_decoder.md R93 to R103). -/

/-- What the Decoder's outcome says of `slvf`, which was `n`, and of the slot writes (41_decoder.md R95, R96, R101,
R102): a channel frame, another valid frame, or no valid frame. -/
def Decoded.LinkOutcome (n : Nat) (d : Decoded) : Prop :=
  (d.evt = .channels ∧ d.state.slvf = 0 ∧ ∃ p, d.writes = channelWrites p) ∨
  (d.evt = .other ∧ d.state.slvf = 0 ∧ d.writes = []) ∨
  (d.evt ≠ .channels ∧ d.evt ≠ .other ∧ d.state.slvf = n ∧ d.writes = [])

theorem decodeFrame_linkOutcome {s : State} {d : Decoded} (h : decodeFrame s = .ok d) : d.LinkOutcome s.slvf := by
  rcases decodeFrame_cases h with ⟨_, rfl⟩ | ⟨_, _, ⟨_, rfl⟩ | ⟨_, ⟨_, _, rfl⟩ | ⟨_, rfl⟩⟩⟩
  · exact .inr (.inr ⟨nofun, nofun, rfl, rfl⟩)
  · exact .inr (.inr ⟨nofun, nofun, rfl, rfl⟩)
  · exact .inl ⟨rfl, rfl, _, rfl⟩
  · exact .inr (.inl ⟨rfl, rfl, rfl⟩)

/-- What a BYTE leaves of the length capture: `exp` as it was, or what the byte says when it is the length byte
(40_assembler.md R77, R78). -/
def CapturedExp (b : Byte) (s : State) (e : Nat) : Prop :=
  (s.pos ≠ 1 ∧ e = s.exp) ∨ (s.pos = 1 ∧ 2 + b.toNat ≤ s.params.bufCap ∧ e = 2 + b.toNat)

/-- Everything a BYTE of a bound block can leave in `d`: the byte is appended; then the Assembler is reset, or the frame
goes on and nothing is reported. -/
structure Decoded.OfByte (b : Byte) (s : State) (d : Decoded) : Prop where
  frame : d.state = { appended b s with pos := d.state.pos, exp := d.state.exp, slvf := d.state.slvf }
  assembler : (d.state.pos = 0 ∧ d.state.exp = s.params.bufCap) ∨
    (d.evt = .none ∧ d.state.pos = s.pos + 1 ∧ ¬(2 ≤ d.state.pos ∧ d.state.pos = d.state.exp) ∧
      CapturedExp b s d.state.exp)
  link : d.LinkOutcome s.slvf

theorem captureLength_appended_cases {b : Byte} {s u : State} {e : Evt}
    (h : captureLength (appended b s) = .ok (u, e)) :
    (u = asmReset (appended b s) ∧ e = .oversize) ∨
    (u = { appended b s with exp := u.exp } ∧ e = .none ∧ CapturedExp b s u.exp) := by
  have hpos : (appended b s).pos = s.pos + 1 := rfl
  rcases captureLength_cases h with ⟨hne, rfl, rfl⟩ | ⟨_, _, rfl, rfl⟩ | ⟨htwo, hfits, rfl, rfl⟩
  · exact .inr ⟨rfl, rfl, .inl ⟨by omega, rfl⟩⟩
  · exact .inl ⟨rfl, rfl⟩
  · have hone : s.pos = 1 := by omega
    have hlen : byteAt (appended b s) 1 = b := hone ▸ byteAt_appended_self b s
    rw [hlen] at hfits ⊢
    exact .inr ⟨rfl, rfl, .inr ⟨hone, hfits, rfl⟩⟩

/-- The completion of a frame that is not abandoned. -/
theorem complete_ofByte {b : Byte} {s u : State} {d : Decoded} (hu : u = { appended b s with exp := u.exp })
    (hexp : CapturedExp b s u.exp) (h : complete u .none = .ok d) : d.OfByte b s := by
  have hpos : u.pos = s.pos + 1 := (congrArg State.pos hu :)
  have hslvf : u.slvf = s.slvf := (congrArg State.slvf hu :)
  rcases complete_cases h with ⟨hopen, rfl⟩ | ⟨_, _, _, d', hd, rfl⟩
  · refine ⟨?_, .inr ⟨rfl, hpos, fun hdone => hopen ⟨rfl, hdone⟩, hexp⟩, .inr (.inr ⟨nofun, nofun, hslvf, rfl⟩)⟩
    rw [hu]
  · obtain ⟨v, hv⟩ := decodeFrame_state hd
    have hparams : d'.state.params = s.params := by rw [hv, hu]; rfl
    have hlink : d'.LinkOutcome s.slvf := hslvf ▸ decodeFrame_linkOutcome hd
    refine ⟨?_, .inl ⟨rfl, congrArg Params.bufCap hparams⟩, hlink⟩
    rw [hv, hu]
    rfl

/-- The start of a BYTE of a bound block. -/
theorem boundByte_eq_ok {b : Byte} {s t : State} (h : boundByte b s = .ok t) :
    ∃ d : Decoded, d.OfByte b s ∧ t = beginOp d.writes
      { status := .ok, headroom := headroom d.state, evt := d.evt, consumed := true } d.state := by
  unfold boundByte at h
  split at h
  case h_1 => cases h
  case h_2 s1 happ =>
    obtain ⟨_, rfl⟩ := append_eq_ok.mp happ
    split at h
    case h_1 => cases h
    case h_2 s2 evt hcap =>
      split at h
      case h_1 => cases h
      case h_2 d hd =>
        refine ⟨d, ?_, by simpa using h.symm⟩
        rcases captureLength_appended_cases hcap with ⟨rfl, rfl⟩ | ⟨hu, rfl, hexp⟩
        · rcases complete_cases hd with ⟨_, rfl⟩ | ⟨hnone, _⟩
          · exact ⟨rfl, .inl ⟨rfl, rfl⟩, .inr (.inr ⟨nofun, nofun, rfl, rfl⟩)⟩
          · cases hnone
        · exact complete_ofByte hu hexp hd

/-- A BYTE of a bound idle block that answers. -/
theorem exec_byte_eq_next {b : Byte} {s t : State} (hi : s.op = none) (hb : s.bound = true)
    (h : exec (.byte b) s = .next t) :
    ∃ d : Decoded, d.OfByte b s ∧ t = settle (beginOp d.writes
      { status := .ok, headroom := headroom d.state, evt := d.evt, consumed := true } d.state) := by
  rcases wholeOp_eq_next.mp (show wholeOp (beginByte b) s = .next t from h) with ⟨hbusy, _⟩ | ⟨_, u, hu, rfl⟩
  · exact absurd hi hbusy
  · rw [beginByte, if_pos hb] at hu
    obtain ⟨d, hd, rfl⟩ := boundByte_eq_ok hu
    exact ⟨d, hd, rfl⟩

theorem exec_byte_of_ready {s : State} (b : Byte) (h : Ready s) :
    ∃ d : Decoded, d.OfByte b s ∧ exec (.byte b) s = .next (settle (beginOp d.writes
      { status := .ok, headroom := headroom d.state, evt := d.evt, consumed := true } d.state)) := by
  obtain ⟨hanswers, -⟩ := byteIsAppended
  obtain ⟨t, hexec, -⟩ := hanswers s b h
  obtain ⟨d, hd, rfl⟩ := exec_byte_eq_next h.idle h.bound hexec
  exact ⟨d, hd, hexec⟩

/-! What follows from the rule. -/

theorem Decoded.OfByte.params {b : Byte} {s : State} {d : Decoded} (h : d.OfByte b s) :
    d.state.params = s.params := (congrArg State.params h.frame :)

theorem Decoded.OfByte.store {b : Byte} {s : State} {d : Decoded} (h : d.OfByte b s) :
    d.state.store = s.store := (congrArg State.store h.frame :)

theorem Decoded.OfByte.headroom {b : Byte} {s : State} {d : Decoded} (h : d.OfByte b s) :
    headroom d.state = s.params.bufCap - d.state.pos := by rw [Machine.headroom, h.params]

/-- What is reported has reset the Assembler. -/
theorem Decoded.OfByte.pos_of_evt {b : Byte} {s : State} {d : Decoded} (h : d.OfByte b s) (he : d.evt ≠ .none) :
    d.state.pos = 0 := by
  rcases h.assembler with ⟨hpos, _⟩ | ⟨hnone, _⟩
  · exact hpos
  · exact absurd hnone he

/-! The start of any event command (20_memory.md R55). -/

/-- `u` is `s` after the register updates of the event command `i`: only registers have changed, `bound` at INIT alone
and the buffer at BYTE alone. -/
structure MovesRegisters (i : Instr) (s u : State) : Prop where
  frame : u = { s with
    bound := u.bound, pos := u.pos, exp := u.exp, buf := u.buf, slb := u.slb, slvf := u.slvf }
  bound : u.bound = if i = .init then true else s.bound
  buf : (∀ b, i ≠ .byte b) → u.buf = s.buf

theorem movesRegisters_refl {i : Instr} (hi : i ≠ .init) (s : State) : MovesRegisters i s s :=
  ⟨rfl, (if_neg hi).symm, fun _ => rfl⟩

theorem boundTick_eq_beginOp (s : State) : ∃ ws r u, boundTick s = beginOp ws r u ∧ MovesRegisters .tick s u := by
  refine ⟨_, _, _, rfl, ?_⟩
  rw [resyncCheck_eq]
  exact ⟨rfl, rfl, fun _ => rfl⟩

/-- Every event command that starts has moved registers alone and left its slot writes and its response in progress. -/
theorem beginInstr_eq_ok {i : Instr} {s t : State} (hi : i.port = .event) (h : beginInstr i s = .ok t) :
    ∃ ws r u, t = beginOp ws r u ∧ MovesRegisters i s u := by
  cases i with
  | init =>
    cases h
    exact ⟨_, _, _, rfl, rfl, rfl, fun _ => rfl⟩
  | byte b =>
    replace h : beginByte b s = .ok t := h
    unfold beginByte at h
    split at h
    case isTrue =>
      obtain ⟨d, hd, rfl⟩ := boundByte_eq_ok h
      refine ⟨_, _, _, rfl, ?_, ?_, fun hne => absurd rfl (hne b)⟩
      · rw [hd.frame]
        rfl
      · rw [hd.frame]
        rfl
    case isFalse =>
      cases h
      exact ⟨_, _, _, rfl, movesRegisters_refl (by simp) s⟩
  | tick =>
    replace h : beginTick s = .ok t := h
    unfold beginTick at h
    split at h
    case isTrue =>
      cases h
      exact boundTick_eq_beginOp s
    case isFalse =>
      cases h
      exact ⟨_, _, _, rfl, movesRegisters_refl (by simp) s⟩
  | read idx => cases hi

/-- An event command that answers was held, or has moved registers and then run to its end. -/
theorem exec_event_cases {i : Instr} {s t : State} (hi : i.port = .event) (h : exec i s = .next t) :
    (s.op ≠ none ∧ t = s) ∨
    (s.op = none ∧ ∃ ws r u, t = settle (beginOp ws r u) ∧ MovesRegisters i s u) := by
  rw [exec_eq_wholeOp hi] at h
  rcases wholeOp_eq_next.mp h with hheld | ⟨hidle, v, hv, rfl⟩
  · exact .inl hheld
  · obtain ⟨ws, r, u, rfl, hu⟩ := beginInstr_eq_ok hi hv
    exact .inr ⟨hidle, ws, r, u, rfl, hu⟩

/-! Frames of the commands (10_state.md section 1, 20_memory.md section 3). -/

/-- Settles O38: an event command moves registers alone, a READ its response alone. -/
theorem commandsLeaveThePortsAlone : Obligations.CommandsLeaveThePortsAlone := by
  intro i s t h
  cases hport : i.port with
  | read =>
    cases i with
    | read idx =>
      cases h
      exact ⟨rfl, rfl, rfl, rfl, rfl, rfl, rfl, nofun, fun _ => rfl⟩
    | init => cases hport
    | byte b => cases hport
    | tick => cases hport
  | event =>
    rcases exec_event_cases hport h with ⟨_, rfl⟩ | ⟨_, ws, r, u, rfl, hu⟩
    · exact ⟨rfl, rfl, rfl, rfl, rfl, rfl, rfl, fun _ => rfl, nofun⟩
    · rw [settle_beginOp, hu.frame]
      exact ⟨rfl, rfl, rfl, rfl, rfl, rfl, rfl, fun _ => rfl, nofun⟩

/-- An event command that is no BYTE leaves the buffer. -/
theorem exec_event_buf {i : Instr} {s t : State} (hport : i.port = .event) (hne : ∀ b, i ≠ .byte b)
    (h : exec i s = .next t) : t.buf = s.buf := by
  rcases exec_event_cases hport h with ⟨_, rfl⟩ | ⟨_, ws, r, u, rfl, hu⟩
  · rfl
  · exact hu.buf hne

theorem exec_byte_of_unbound {b : Byte} {s t : State} (hb : s.bound = false) (h : exec (.byte b) s = .next t) :
    t.buf = s.buf ∧ t.origin = s.origin := by
  rcases wholeOp_eq_next.mp (show wholeOp (beginByte b) s = .next t from h) with ⟨_, rfl⟩ | ⟨_, u, hu, rfl⟩
  · exact ⟨rfl, rfl⟩
  · simp only [beginByte, hb] at hu
    cases hu
    exact ⟨rfl, rfl⟩

/-- Settles O39: a bound BYTE on an idle port has appended its byte, and nothing else writes the buffer. -/
theorem bufferIsWrittenOnlyByByteAtPosition : Obligations.BufferIsWrittenOnlyByByteAtPosition := by
  refine ⟨fun b s t h => ?byte, fun i s t hi h => ?others⟩
  case byte =>
    by_cases hstores : s.bound = true ∧ s.op = none
    · obtain ⟨hb, hi⟩ := hstores
      obtain ⟨d, hd, rfl⟩ := exec_byte_eq_next hi hb h
      have hbuf : d.state.buf = s.buf.write s.pos b := (congrArg State.buf hd.frame :)
      have horigin : d.state.origin = s.origin := (congrArg State.origin hd.frame :)
      refine ⟨fun a ha => byteAt_of_write_other hbuf horigin ha, fun _ _ => byteAt_of_write hbuf, ?_⟩
      rintro (hunbound | hbusy)
      · simp [hb] at hunbound
      · exact absurd hi hbusy
    · have hsame : t.buf = s.buf ∧ t.origin = s.origin := by
        by_cases hb : s.bound = true
        · rcases exec_event_cases rfl h with ⟨_, rfl⟩ | ⟨hi, _⟩
          · exact ⟨rfl, rfl⟩
          · exact absurd ⟨hb, hi⟩ hstores
        · exact exec_byte_of_unbound (Bool.eq_false_of_not_eq_true hb) h
      have hread (a : Nat) : byteAt t a = byteAt s a := byteAt_congr hsame.1 hsame.2 a
      exact ⟨fun a _ => hread a, fun hb hi => absurd ⟨hb, hi⟩ hstores, fun _ => hread⟩
  case others =>
    obtain ⟨-, -, -, -, -, -, horigin, -, hread⟩ := commandsLeaveThePortsAlone i s t h
    have hbuf : t.buf = s.buf := by
      rcases hi with rfl | rfl | ⟨idx, rfl⟩
      · exact exec_event_buf rfl (by simp) h
      · exact exec_event_buf rfl (by simp) h
      · rw [hread rfl]
    exact ⟨hbuf, byteAt_congr hbuf horigin⟩

/-- Settles O40: the frames of the commands, and the Decoder's outcome for what a BYTE leaves of `slvf` and the store.
-/
theorem commandsLeaveOtherRegistersAlone : Obligations.CommandsLeaveOtherRegistersAlone := by
  intro i s t h
  refine ⟨fun hne => ?bound, ?read, ?byte⟩
  case bound =>
    cases hport : i.port with
    | read =>
      obtain ⟨-, -, -, -, -, -, -, -, hread⟩ := commandsLeaveThePortsAlone i s t h
      rw [hread hport]
    | event =>
      rcases exec_event_cases hport h with ⟨_, rfl⟩ | ⟨_, ws, r, u, rfl, hu⟩
      · rfl
      · exact hu.bound.trans (if_neg hne)
  case read =>
    rintro idx rfl
    cases h
    exact ⟨rfl, rfl, rfl, rfl, rfl, rfl, rfl⟩
  case byte =>
    rintro b rfl hi hb
    obtain ⟨d, hd, rfl⟩ := exec_byte_eq_next hi hb h
    refine ⟨(congrArg State.slb hd.frame :), ?_⟩
    rcases hd.link with ⟨hevt, hslvf, _⟩ | ⟨hevt, hslvf, hnone⟩ | ⟨_, _, hslvf, hnone⟩
    · exact .inr ⟨hslvf, _, rfl, .inl hevt⟩
    · refine .inr ⟨hslvf, _, rfl, .inr ⟨hevt, ?_⟩⟩
      rw [hnone]
      exact hd.store
    · refine .inl ⟨hslvf, ?_⟩
      rw [hnone]
      exact hd.store

/-! Responses (40_assembler.md R86, 60_exceptions.md section 2). -/

/-- Settles O36, command by command. -/
theorem eventResponseSaysWhatHappened : Obligations.EventResponseSaysWhatHappened := by
  intro i s t hport hi h
  cases i with
  | init =>
    rw [initBindsAndInitialises s hi] at h
    cases h
    exact ⟨_, rfl, rfl, fun _ => rfl, by simp, by simp, by simp, by simp⟩
  | byte b =>
    by_cases hb : s.bound = true
    · obtain ⟨d, hd, rfl⟩ := exec_byte_eq_next hi hb h
      refine ⟨_, rfl, by simpa using hd.headroom, fun he => ?_, by simp [hb], by simp [hb], by simp [hb], by simp⟩
      rw [hd.headroom, hd.pos_of_evt he, Nat.sub_zero]
    · have hbegin : beginByte b s = .ok (beginOp [] { status := .unbound, headroom := headroom s } s) := if_neg hb
      rw [show exec (.byte b) s = _ from wholeOp_of_ok hi hbegin, settle_beginOp_of_no_writes hi] at h
      cases h
      exact ⟨_, rfl, rfl, by simp, by simp [hb], by simp [hb], by simp, by simp⟩
  | tick =>
    rw [tickRunsBothChecks s hi] at h
    split at h
    case isTrue hb =>
      cases h
      exact ⟨_, rfl, rfl, by simp, by simp [hb], by simp, by simp, by simp⟩
    case isFalse hb =>
      cases h
      refine ⟨_, rfl, ?_, by simp, by simp [hb], by simp, by simp, by simp [hb]⟩
      simp only [sub_ite, Nat.sub_zero]
  | read idx => cases hport

/-! The two timeout tables (42_supervisor.md section 3). -/

theorem syncState_receiving {s : State} : syncState s = .receiving ↔ s.slb ≤ s.params.resyncLimit := by
  simp [syncState]

theorem syncState_gap {s : State} : syncState s = .gap ↔ s.params.resyncLimit < s.slb := by
  simp [syncState]

theorem linkState_alive {s : State} : linkState s = .alive ↔ s.slvf ≤ s.params.failsafeLimit := by
  simp [linkState]

theorem linkState_lost {s : State} : linkState s = .lost ↔ s.params.failsafeLimit < s.slvf := by
  simp [linkState]

/-- In GAP the Assembler is idle, so that a BYTE starts a frame. -/
theorem exec_byte_from_gap {s : State} (b : Byte) (h : Ready s) (hgap : syncState s = .gap) :
    ∃ t, exec (.byte b) s = .next t ∧ t.pos = 1 ∧ byteAt t 0 = b := by
  have hpos := h.inv.gap_idle (syncState_gap.mp hgap)
  obtain ⟨t, hexec, hbyte, hlen, -⟩ := exec_byte_from_addr b h hpos
  exact ⟨t, hexec, pos_of_asmState_len hlen, hpos ▸ hbyte⟩

/-- Settles O30: a BYTE clears `slb`, and a TICK counts it up to where its check does its work. -/
theorem syncDetectorFollowsItsTable : Obligations.SyncDetectorFollowsItsTable := by
  refine fun s h => ⟨fun b => ?byte, ticked s, exec_tick_of_bound h.idle h.bound, rfl, ?tick⟩
  case byte =>
    obtain ⟨d, hd, hexec⟩ := exec_byte_of_ready b h
    have hslb : d.state.slb = 0 := (congrArg State.slb hd.frame :)
    refine ⟨_, hexec, hslb, syncState_receiving.mpr (Nat.le_trans (Nat.le_of_eq hslb) (Nat.zero_le _)), fun hgap => ?_⟩
    obtain ⟨t, hexec', hstarts⟩ := exec_byte_from_gap b h hgap
    cases hexec.symm.trans hexec'
    exact hstarts
  case tick =>
    cases hsync : syncState s with
    | receiving =>
      refine ⟨h.inv.slb_ticked_of_le (syncState_receiving.mp hsync), ?_⟩
      split
      case isTrue hfires => exact ⟨syncState_gap.mpr hfires, if_pos hfires, if_pos hfires⟩
      case isFalse hquiet => exact ⟨syncState_receiving.mpr (Nat.le_of_not_lt hquiet), if_neg hquiet, if_neg hquiet⟩
    | gap =>
      have hfires := Nat.lt_of_lt_of_le (syncState_gap.mp hsync) (slb_le_ticked s)
      exact ⟨syncState_gap.mpr hfires, if_pos hfires, if_pos hfires⟩

/-- A TICK takes a counter at or below the failsafe limit up by one. -/
theorem Inv.slvf_ticked_of_le {s : State} (h : Inv s) (hle : s.slvf ≤ s.params.failsafeLimit) :
    (ticked s).slvf = s.slvf + 1 :=
  satInc_of_lt (Nat.lt_of_le_of_lt hle h.limits_lt_counterMax.2)

/-- Settles O31: what the Decoder's outcome says of `slvf` and the store, and what the link-loss check does. -/
theorem linkLossFollowsItsTable : Obligations.LinkLossFollowsItsTable := by
  refine fun s h => ⟨fun b => ?byte, ticked s, exec_tick_of_bound h.idle h.bound, rfl, ?tick⟩
  case byte =>
    obtain ⟨d, hd, hexec⟩ := exec_byte_of_ready b h
    have halive (hslvf : d.state.slvf = 0) : d.state.slvf ≤ d.state.params.failsafeLimit :=
      Nat.le_trans (Nat.le_of_eq hslvf) (Nat.zero_le _)
    have hroom (he : d.evt ≠ .none) : headroom d.state = s.params.bufCap := by
      rw [hd.headroom, hd.pos_of_evt he, Nat.sub_zero]
    rw [settle_beginOp] at hexec
    refine ⟨_, hexec, ?_⟩
    rcases hd.link with ⟨hevt, hslvf, p, hp⟩ | ⟨hevt, hslvf, hnone⟩ | ⟨hchannels, hother, hslvf, hnone⟩
    · rw [hroom (by simp [hevt]), hevt, hp]
      exact .inl ⟨hslvf, linkState_alive.mpr (halive hslvf),
        .inl ⟨fun i => ⟨_, applyWrites_channelWrites p _ i⟩, rfl⟩⟩
    · rw [hroom (by simp [hevt]), hevt, hnone]
      exact .inl ⟨hslvf, linkState_alive.mpr (halive hslvf), .inr ⟨hd.store, rfl⟩⟩
    · rw [hd.headroom, hnone]
      refine .inr ⟨hslvf, ?_, hd.store, d.evt, hchannels, hother, rfl⟩
      simp [linkState, hd.params, hslvf]
  case tick =>
    cases hlink : linkState s with
    | alive =>
      refine ⟨h.inv.slvf_ticked_of_le (linkState_alive.mp hlink), ?_⟩
      split
      case isTrue hfires => exact ⟨linkState_lost.mpr hfires, if_pos hfires⟩
      case isFalse hquiet => exact ⟨linkState_alive.mpr (Nat.le_of_not_lt hquiet), if_neg hquiet⟩
    | lost =>
      have hfires := Nat.lt_of_lt_of_le (linkState_lost.mp hlink) (slvf_le_ticked s)
      exact ⟨linkState_lost.mpr hfires, if_pos hfires⟩

end Sys2Proof.Machine

/-! Channel frames and their CRC (41_decoder.md section 2, 30_encoding.md sections 4 and 5): the frame's layout, what
it leaves in the store, and that no change confined to one byte of it goes unseen. -/

namespace Sys2Proof.Machine

/-- Settles O24: the completing byte is the frame's CRC, and the slot writes leave the channel of each slot. -/
theorem channelFrameWritesEverySlot : Obligations.ChannelFrameWritesEverySlot := by
  intro s b h hpos hexp htype hcrc
  have hspan : spanCrc s = b := by
    rw [spanCrc, hexp]
    exact hcrc
  have hstore (p : List Byte) :
      applyWrites (channelWrites p) s.store = Vector.ofFn fun i => .value (unpack p i) :=
    store_ext fun i => (applyWrites_channelWrites p _ i).trans (by simp)
  have hexec := exec_byte_last_of_channels h hpos hexp htype
  rw [hspan, hstore] at hexec
  rw [hexec, appended, hpos]
  rfl

/-! The layout of a channel frame (30_encoding.md sections 4 and 5). -/

/-- Settles O48: eight channels are 88 bits, which are eleven whole bytes. -/
theorem shiftTableIsTheTabled : Obligations.ShiftTableIsTheTabled := by
  refine ⟨rfl, fun i => ?_⟩
  unfold channelByte channelShift
  omega

/-- A frame's payload stands between its three header bytes and its CRC. -/
theorem wireFrame_getElem? (a t c : Byte) (p : List Byte) :
    (∀ j, j < p.length → (wireFrame a t p c)[3 + j]? = p[j]?) ∧ (wireFrame a t p c)[3 + p.length]? = some c := by
  refine ⟨fun j hj => ?_, ?_⟩
  · rw [Nat.add_comm]
    exact List.getElem?_append_left hj
  · rw [Nat.add_comm]
    exact List.getElem?_concat_length

/-- Settles O50: the header's three bytes, the payload's 22 and the CRC. -/
theorem channelFrameHasTheWireLayout : Obligations.ChannelFrameHasTheWireLayout := by
  intro poly a cs
  have hlen := packChannels_length cs
  obtain ⟨hpayload, hcrc⟩ :=
    wireFrame_getElem? a 0x16#8 (frameCrc poly 0x16#8 (packChannels cs)) (packChannels cs)
  rw [hlen] at hpayload hcrc
  refine ⟨by simp [frameBytes, wireFrame], rfl, ?_, rfl, hlen, hpayload, hcrc⟩
  simp [frameBytes, wireFrame]

/-! One changed byte (41_decoder.md section 2). -/

/-- With an odd polynomial the lowest bit of a shifted remainder says whether the polynomial came in. -/
theorem crcShift_lsb {poly : Byte} (hodd : poly.getLsbD 0 = true) (c : Byte) :
    (crcShift poly c).getLsbD 0 = c.msb := by
  unfold crcShift
  split
  case isTrue hmsb => simp [hmsb, hodd]
  case isFalse hmsb => simp [hmsb]

/-- With an odd polynomial a shift loses nothing. -/
theorem crcShift_injective {poly : Byte} (hodd : poly.getLsbD 0 = true) : Function.Injective (crcShift poly) := by
  intro a b h
  have hmsb : a.msb = b.msb := by rw [← crcShift_lsb hodd, ← crcShift_lsb hodd, h]
  have hshift : a <<< 1 = b <<< 1 := by
    unfold crcShift at h
    rw [hmsb] at h
    split at h
    · exact (BitVec.xor_left_inj poly).mp h
    · exact h
  apply BitVec.eq_of_getElem_eq
  intro i hi
  by_cases htop : i = 7
  · simpa [BitVec.msb_eq_getLsbD_last, htop] using hmsb
  · have hbit := congrArg (BitVec.getLsbD · (i + 1)) hshift
    simpa [BitVec.getLsbD_shiftLeft, show i + 1 < 8 by omega] using hbit

theorem repeat_injective {α : Type} {f : α → α} (hf : Function.Injective f) (n : Nat) :
    Function.Injective (Nat.repeat f n) := by
  induction n with
  | zero => exact Function.injective_id
  | succ n ih => exact hf.comp ih

theorem crcByte_right_injective {poly : Byte} (hodd : poly.getLsbD 0 = true) (c : Byte) :
    Function.Injective (crcByte poly c) :=
  fun _ _ h => (BitVec.xor_right_inj c).mp (repeat_injective (crcShift_injective hodd) 8 h)

theorem crcByte_left_injective {poly : Byte} (hodd : poly.getLsbD 0 = true) (x : Byte) :
    Function.Injective (crcByte poly · x) :=
  fun _ _ h => (BitVec.xor_left_inj x).mp (repeat_injective (crcShift_injective hodd) 8 h)

/-- Different remainders stay different under the same bytes. -/
theorem crc8_injective {poly : Byte} (hodd : poly.getLsbD 0 = true) (seq : List Byte) :
    Function.Injective (crc8 poly · seq) := by
  induction seq with
  | nil => exact Function.injective_id
  | cons x seq ih => exact ih.comp (crcByte_left_injective hodd x)

/-- Settles O44: the changed byte makes the remainders differ, and the bytes after it keep them apart. -/
theorem crcDetectsAnyOneByteChange : Obligations.CrcDetectsAnyOneByteChange := by
  intro poly seed x y a b hodd hne h
  rw [crc8_append, crc8_append, crc8_cons, crc8_cons] at h
  exact hne (crcByte_right_injective hodd _ (crc8_injective hodd b h))

/-- Settles O45: the CRC byte of the unchanged payload is not the CRC of the changed one, so the frame is discarded. -/
theorem corruptedChannelFrameLeavesTheStore : Obligations.CorruptedChannelFrameLeavesTheStore := by
  intro s a c x y h hodd hpos hexp htype hpayload hne
  have hspan : (List.range' 2 (s.exp - 3)).map (byteAt s) = (0x16#8 :: a) ++ y :: c := by
    rw [hexp, show 26 - 3 = 22 + 1 from rfl, List.range'_succ, List.map_cons, htype, hpayload]
    rfl
  refine ⟨_, crcMismatchIsDiscarded s _ h (by omega) (by omega) ?_, rfl, rfl, rfl⟩
  rw [hspan]
  exact crcDetectsAnyOneByteChange _ _ y x (0x16#8 :: a) c hodd hne.symm

end Sys2Proof.Machine

/-! The invariant (10_state.md R33, R34): where it holds, that every arrival and every step keeps it, and that no step
from it stops. -/

namespace Sys2Proof.Machine

/-! The parameters and the widths (00_scope.md R8, R9). -/

/-- After power-on reset every clause is about a 0 or an empty list. -/
theorem inv_powerOn {p : Params} (hlegal : p.legal = true) (o : Nat) : Inv (State.powerOn p o) where
  params_legal := hlegal
  pos_lt_exp := by
    simp only [Params.legal, Params.bufCapLegal, Bool.and_eq_true, decide_eq_true_eq] at hlegal
    simp only [powerOn_pos, powerOn_exp]
    omega
  exp_le_cap := Nat.le_refl _
  exp_unknown := fun _ => rfl
  exp_known := fun h => absurd h (Nat.not_succ_le_zero 1)
  buf_wf := Memory.wf_nil
  buf_range := fun _ hc => absurd hc List.not_mem_nil
  buf_written := fun i hi => absurd hi (Nat.not_lt_zero i)
  slb_le := Nat.zero_le _
  slvf_le := Nat.zero_le _
  gap_idle := fun _ => rfl
  outage_timeout := fun h => absurd h (Nat.not_lt_zero _)
  unbound_idle := fun _ => ⟨rfl, rfl, rfl, rfl, rfl, nofun⟩
  writes_nodup := nofun
  busy_silent := fun _ => rfl

/-- Settles O53: the machine's reset is the power-on of the default parameters, which are legal. -/
theorem powerOnStateMeetsTheInvariant : Obligations.PowerOnStateMeetsTheInvariant :=
  ⟨fun _ o hlegal => inv_powerOn hlegal o, inv_powerOn (by decide) 0⟩

/-- Settles O59: the invariant bounds `exp` by `BUF_CAP` and the counters by their largest value. -/
theorem registersFitTheirWidths : Obligations.RegistersFitTheirWidths := by
  intro s h
  have hcap : s.params.bufCap + 1 ≤ 2 ^ s.params.posW := Nat.le_pow_clog Nat.one_lt_two _
  have hmax : s.params.counterMax < 2 ^ s.params.cntW := Nat.sub_one_lt (Nat.two_pow_pos _).ne'
  have hpos := h.pos_lt_exp
  have hexp := h.exp_le_cap
  exact ⟨by omega, by omega, Nat.lt_of_le_of_lt h.slb_le hmax, Nat.lt_of_le_of_lt h.slvf_le hmax⟩

/-! What the invariant does not look at, and the parts of an operation (log 7). -/

/-- `t` is `s` with its operation in progress further on or less far, its ports served or not: the registers but the
store are the same, and so is the store in the end. -/
structure SameButProgress (s t : State) : Prop where
  params : t.params = s.params
  bound : t.bound = s.bound
  pos : t.pos = s.pos
  exp : t.exp = s.exp
  buf : t.buf = s.buf
  slb : t.slb = s.slb
  slvf : t.slvf = s.slvf
  store : (settle t).store = (settle s).store

/-- While unbound an operation in progress makes no slot write (10_state.md R34). -/
theorem Inv.writes_eq_nil {s : State} (h : Inv s) (hb : s.bound = false) : ∀ p, s.op = some p → p.writes = [] := by
  obtain ⟨-, -, -, -, -, hw⟩ := h.unbound_idle hb
  exact hw

/-- The invariant stays as an operation goes on, with what it says of the operation itself. -/
theorem Inv.of_sameButProgress {s t : State} (h : Inv s) (e : SameButProgress s t)
    (hnodup : ∀ p, t.op = some p → (p.writes.map Prod.fst).Nodup)
    (hunbound : t.bound = false → ∀ p, t.op = some p → p.writes = [])
    (hsilent : t.op ≠ none → t.evr = none) : Inv t where
  params_legal := by rw [e.params]; exact h.params_legal
  pos_lt_exp := by rw [e.pos, e.exp]; exact h.pos_lt_exp
  exp_le_cap := by rw [e.exp, e.params]; exact h.exp_le_cap
  exp_unknown := by rw [e.pos, e.exp, e.params]; exact h.exp_unknown
  exp_known := by rw [e.pos, e.exp, e.buf]; exact h.exp_known
  buf_wf := by rw [e.buf]; exact h.buf_wf
  buf_range := by rw [e.buf, e.params]; exact h.buf_range
  buf_written := by rw [e.pos, e.buf]; exact h.buf_written
  slb_le := by rw [e.slb, e.params]; exact h.slb_le
  slvf_le := by rw [e.slvf, e.params]; exact h.slvf_le
  gap_idle := by rw [e.slb, e.pos, e.params]; exact h.gap_idle
  outage_timeout := by rw [e.slvf, e.params, e.store]; exact h.outage_timeout
  unbound_idle := fun hb => by
    have hsb : s.bound = false := e.bound ▸ hb
    obtain ⟨hpos, hexp, hslb, hslvf, hstore, hw⟩ := h.unbound_idle hsb
    have hsame : t.store = s.store := calc
      t.store = (settle t).store := (keepsRegisters_settle (hunbound hb)).store.symm
      _ = (settle s).store := e.store
      _ = s.store := (keepsRegisters_settle hw).store
    rw [e.pos, e.exp, e.params, e.slb, e.slvf, hsame]
    exact ⟨hpos, hexp, hslb, hslvf, hstore, hunbound hb⟩
  writes_nodup := hnodup
  busy_silent := hsilent

/-- The invariant looks at the block's registers, its parameters and the operation in progress, and at the event
response while there is one. -/
theorem Inv.congr {s t : State} (h : Inv s) (hk : KeepsRegisters s t) (hparams : t.params = s.params)
    (hop : t.op = s.op) (hsilent : t.op ≠ none → t.evr = none) : Inv t :=
  h.of_sameButProgress
    ⟨hparams, hk.bound, hk.pos, hk.exp, hk.buf, hk.slb, hk.slvf, settle_store_congr hop hk.store⟩
    (hop ▸ h.writes_nodup) (fun hb => hop ▸ h.writes_eq_nil (hk.bound ▸ hb)) hsilent

theorem Inv.setWaiting {s : State} (h : Inv s) (r : Requester) (ws : List CommandWord) : Inv (setWaiting r ws s) :=
  h.congr (keepsRegisters_setWaiting r ws s) (by simp) (by simp) (by simpa using h.busy_silent)

theorem Inv.draws {s : State} (h : Inv s) (d : Nat) : Inv { s with draws := d } :=
  h.congr (keepsRegisters_draws d s) rfl rfl h.busy_silent

theorem Inv.readReq {s : State} (h : Inv s) (ws : List CommandWord) : Inv { s with readReq := ws } :=
  h.congr (keepsRegisters_readReq ws s) rfl rfl h.busy_silent

theorem Inv.respondRead {s : State} (h : Inv s) (r : ReadResult) : Inv (respondRead r s) :=
  h.congr (keepsRegisters_respondRead r s) rfl rfl h.busy_silent

/-- A response alone keeps the invariant of an idle block. -/
theorem Inv.evr {s : State} (h : Inv s) (hi : s.op = none) (w : Option EventWord) : Inv { s with evr := w } :=
  h.congr ⟨rfl, rfl, rfl, rfl, rfl, rfl, rfl⟩ rfl rfl fun hop => absurd hi hop

theorem sameButProgress_settle (s : State) : SameButProgress s (settle s) := by
  constructor <;> simp

/-- The end of an operation keeps the invariant. -/
theorem Inv.settle {s : State} (h : Inv s) : Inv (settle s) :=
  h.of_sameButProgress (sameButProgress_settle s) (by simp) (by simp) (by simp)

/-- An operation whose end meets the invariant meets it itself, with what the invariant says of operations. -/
theorem Inv.of_settle {s : State} (h : Inv (Machine.settle s))
    (hnodup : ∀ p, s.op = some p → (p.writes.map Prod.fst).Nodup)
    (hunbound : s.bound = false → ∀ p, s.op = some p → p.writes = [])
    (hsilent : s.op ≠ none → s.evr = none) : Inv s :=
  h.of_sameButProgress (by constructor <;> simp) hnodup hunbound hsilent

/-- The landing of a slot write keeps the invariant: the end of the operation stays the same. -/
theorem Inv.landWrite {s : State} (h : Inv s) (k : Nat) : Inv (landWrite k s) := by
  rcases landWrite_cases k s with heq | ⟨p, w, hp, hw, heq⟩
  · exact heq.symm ▸ h
  · have hend := congrArg State.store (settle_landWrite (k := k) h.writes_nodup)
    rw [heq] at hend ⊢
    refine h.of_sameButProgress ⟨rfl, rfl, rfl, rfl, rfl, rfl, rfl, hend⟩ ?_ (fun hb => ?_) fun _ => ?_
    · rintro q ⟨⟩
      exact (h.writes_nodup p hp).sublist ((List.eraseIdx_sublist _ _).map _)
    · rintro q ⟨⟩
      simp [h.writes_eq_nil hb p hp]
    · exact h.busy_silent (by simp [hp])

/-! Arrivals (60_exceptions.md section 3). -/

theorem Inv.presentEvent {s : State} (h : Inv s) (r : Requester) (w : CommandWord) : Inv (s.presentEvent r w) :=
  h.setWaiting r _

theorem Inv.presentRead {s : State} (h : Inv s) (w : CommandWord) : Inv (s.presentRead w) := h.readReq _

/-- Settles O55: what arrives changes the waiting lists alone, after the end of the operation in progress for
`withFetchWord`. -/
theorem arrivingRequestsKeepTheInvariant : Obligations.ArrivingRequestsKeepTheInvariant := by
  intro s w h
  refine ⟨fun r => h.presentEvent r w, h.presentRead w, fun nbits k => ?_⟩
  have hquiet : Inv { settle s with hostReq := [], byteReq := [], tickReq := [], readReq := [] } :=
    h.settle.congr ⟨rfl, rfl, rfl, rfl, rfl, rfl, rfl⟩ rfl rfl h.settle.busy_silent
  unfold State.withFetchWord presentOnly
  split
  · exact hquiet.presentRead _
  · exact hquiet.presentEvent _ _

/-! The event commands (40_assembler.md R82, 42_supervisor.md R107, 43_store_lifecycle.md R122). -/

/-- The frame bytes of the Assembler after a BYTE (10_state.md R25, R27). -/
theorem Decoded.OfByte.buf_written {b : Byte} {s : State} {d : Decoded} (h : d.OfByte b s) (hinv : Inv s) :
    ∀ i, i < d.state.pos → (d.state.buf.read i).isSome = true := by
  have hbuf : d.state.buf = s.buf.write s.pos b := (congrArg State.buf h.frame :)
  intro i hi
  rw [hbuf]
  by_cases heq : i = s.pos
  · rw [heq, Memory.read_write_self]
    rfl
  · rw [Memory.read_write_other _ _ heq]
    refine hinv.buf_written i ?_
    rcases h.assembler with ⟨hzero, _⟩ | ⟨_, hpos, _⟩ <;> omega

/-- Where the Assembler stands after a BYTE (10_state.md R26, R33). -/
theorem Decoded.OfByte.exp_bounds {b : Byte} {s : State} {d : Decoded} (h : d.OfByte b s) (hinv : Inv s) :
    d.state.pos < d.state.exp ∧ d.state.exp ≤ s.params.bufCap ∧
      (d.state.pos ≤ 1 → d.state.exp = s.params.bufCap) := by
  have hcap := hinv.bufCap_ge
  have hlt := hinv.pos_lt_exp
  have hle := hinv.exp_le_cap
  have hunknown := hinv.exp_unknown
  rcases h.assembler with ⟨hpos, hexp⟩ | ⟨_, hpos, hopen, ⟨hne, hexp⟩ | ⟨hone, hfits, hexp⟩⟩
  · omega
  · omega
  · omega

/-- A frame that goes on past its length byte is as long as that byte says (10_state.md R26). -/
theorem Decoded.OfByte.exp_known {b : Byte} {s : State} {d : Decoded} (h : d.OfByte b s) (hinv : Inv s)
    (htwo : 2 ≤ d.state.pos) :
    3 ≤ d.state.exp ∧ ∃ l, d.state.buf.read 1 = some l ∧ d.state.exp = 2 + l.toNat := by
  have hbuf : d.state.buf = s.buf.write s.pos b := (congrArg State.buf h.frame :)
  rw [hbuf]
  rcases h.assembler with ⟨hpos, _⟩ | ⟨_, hpos, hopen, ⟨hne, hexp⟩ | ⟨hone, _, hexp⟩⟩
  · omega
  · obtain ⟨hthree, l, hread, hl⟩ := hinv.exp_known (by omega)
    rw [Memory.read_write_other _ _ hne.symm, hexp]
    exact ⟨hthree, l, hread, hl⟩
  · rw [hone, Memory.read_write_self]
    exact ⟨by omega, b, rfl, hexp⟩

/-- `slvf` after a BYTE, and the store where `slvf` has not been cleared. -/
theorem Decoded.OfByte.slvf_cases {b : Byte} {s : State} {d : Decoded} (h : d.OfByte b s) :
    d.state.slvf = 0 ∨ (d.state.slvf = s.slvf ∧ applyWrites d.writes d.state.store = s.store) := by
  rcases h.link with ⟨_, hslvf, _⟩ | ⟨_, hslvf, _⟩ | ⟨_, _, hslvf, hnone⟩
  · exact .inl hslvf
  · exact .inl hslvf
  · refine .inr ⟨hslvf, ?_⟩
    rw [hnone]
    exact h.store

/-- A BYTE of a bound block keeps the invariant. -/
theorem Decoded.OfByte.inv {b : Byte} {s : State} {d : Decoded} (h : d.OfByte b s) (hs : Ready s) (r : EventResponse) :
    Inv (settle (beginOp d.writes r d.state)) := by
  have hbuf : d.state.buf = s.buf.write s.pos b := (congrArg State.buf h.frame :)
  have hslb : d.state.slb = 0 := (congrArg State.slb h.frame :)
  have hbound : d.state.bound = true := (congrArg State.bound h.frame :).trans hs.bound
  obtain ⟨hlt, hle, hunknown⟩ := h.exp_bounds hs.inv
  rw [settle_beginOp]
  rw [← h.params] at hle hunknown
  exact {
    params_legal := h.params ▸ hs.inv.params_legal
    pos_lt_exp := hlt
    exp_le_cap := hle
    exp_unknown := hunknown
    exp_known := h.exp_known hs.inv
    buf_wf := hbuf ▸ Memory.write_wf hs.inv.buf_wf _ _
    buf_range := fun c hc => by
      rcases Memory.mem_write (hbuf ▸ hc : c ∈ s.buf.write s.pos b) with rfl | hc
      · exact h.params ▸ hs.inv.pos_lt_cap
      · exact h.params ▸ hs.inv.buf_range c hc
    buf_written := h.buf_written hs.inv
    slb_le := Nat.le_trans (Nat.le_of_eq hslb) (Nat.zero_le _)
    slvf_le := by
      rcases h.slvf_cases with hslvf | ⟨hslvf, _⟩
      · exact Nat.le_trans (Nat.le_of_eq hslvf) (Nat.zero_le _)
      · exact h.params ▸ hslvf ▸ hs.inv.slvf_le
    gap_idle := fun hgap => absurd (hslb ▸ hgap) (Nat.not_lt_zero _)
    outage_timeout := fun hlost => by
      rcases h.slvf_cases with hslvf | ⟨hslvf, hstore⟩
      · exact absurd (hslvf ▸ hlost) (Nat.not_lt_zero _)
      · have houtage := hs.inv.outage_timeout (h.params ▸ hslvf ▸ hlost)
        rw [settle_of_idle hs.idle] at houtage
        exact hstore.trans houtage
    unbound_idle := fun hb => absurd (hbound.symm.trans hb) nofun
    writes_nodup := nofun
    busy_silent := fun hop => absurd rfl hop }

/-- INIT keeps the invariant: it leaves the power-on registers, bound. -/
theorem inv_initialised {s : State} (h : Inv s) (hi : s.op = none) (w : Option EventWord) :
    Inv { s with bound := true, pos := 0, exp := s.params.bufCap, slb := 0, slvf := 0,
                 store := Vector.replicate 16 .noDriver, evr := w } where
  params_legal := h.params_legal
  pos_lt_exp := Nat.lt_of_lt_of_le (Nat.succ_pos 25) h.bufCap_ge
  exp_le_cap := Nat.le_refl _
  exp_unknown := fun _ => rfl
  exp_known := fun htwo => absurd htwo (Nat.not_succ_le_zero 1)
  buf_wf := h.buf_wf
  buf_range := h.buf_range
  buf_written := fun i hlt => absurd hlt (Nat.not_lt_zero i)
  slb_le := Nat.zero_le _
  slvf_le := Nat.zero_le _
  gap_idle := fun _ => rfl
  outage_timeout := fun hlost => absurd hlost (Nat.not_lt_zero _)
  unbound_idle := nofun
  writes_nodup := h.writes_nodup
  busy_silent := fun hop => absurd hi hop

/-- Every event command keeps the invariant. -/
theorem inv_exec {i : Instr} {s t : State} (hport : i.port = .event) (h : Inv s) (hi : s.op = none)
    (hexec : exec i s = .next t) : Inv t := by
  cases i with
  | init =>
    rw [initBindsAndInitialises s hi] at hexec
    cases hexec
    exact inv_initialised h hi _
  | byte b =>
    cases hb : s.bound with
    | true =>
      obtain ⟨d, hd, rfl⟩ := exec_byte_eq_next hi hb hexec
      exact hd.inv ⟨h, hb, hi⟩ _
    | false =>
      obtain ⟨hunbound, -⟩ := beforeInitByteAndTickAreUnbound s h hb hi
      rw [hunbound b] at hexec
      cases hexec
      exact h.evr hi _
  | tick =>
    cases hb : s.bound with
    | true =>
      rw [exec_tick_of_bound hi hb] at hexec
      cases hexec
      exact inv_ticked ⟨h, hb, hi⟩
    | false =>
      obtain ⟨-, hunbound⟩ := beforeInitByteAndTickAreUnbound s h hb hi
      rw [hunbound] at hexec
      cases hexec
      exact h.evr hi _
  | read idx => cases hport

/-- The start of an event command keeps the invariant. -/
theorem inv_beginInstr {i : Instr} {s u : State} (hport : i.port = .event) (h : Inv s) (hi : s.op = none)
    (hu : beginInstr i s = .ok u) : Inv u := by
  have hend : Inv (settle u) := inv_exec hport h hi (exec_eq_wholeOp hport s ▸ wholeOp_of_ok hi hu)
  obtain ⟨ws, r, hopens⟩ := beginInstr_opens hport hu
  obtain ⟨_, _, v, rfl, hv⟩ := beginInstr_eq_ok hport hu
  refine hend.of_settle (fun p hp => ?_) (fun hb p hp => ?_) fun _ => rfl
  · cases hopens.op.symm.trans hp
    exact hopens.nodup
  · have hbound := hv.bound.symm.trans hb
    split at hbound
    case isTrue => cases hbound
    case isFalse hne =>
      rcases beginInstr_unbound hbound hport hu with hinit | ⟨r, hr⟩
      · exact absurd hinit hne
      · rw [hr] at hp
        cases hp
        rfl

theorem inv_beginIllegal {s u : State} (h : Inv s) (hi : s.op = none) (hu : beginIllegal s = .ok u) : Inv u := by
  cases hu
  have hend : Inv (settle (beginOp [] { status := .illegal, headroom := headroom s } s)) :=
    settle_beginOp_of_no_writes hi _ ▸ h.evr hi _
  refine hend.of_settle ?_ (fun _ => ?_) fun _ => rfl
  · rintro p ⟨⟩
    exact List.nodup_nil
  · rintro p ⟨⟩
    rfl

/-! Every step (10_state.md R33). -/

/-- Every action that is enabled keeps the invariant. -/
theorem inv_perform {a : Action} {s t : State} (h : Inv s) (ha : a ∈ enabled s) (hstep : perform a s = .next t) :
    Inv t := by
  rcases perform_cases ha hstep with ⟨hidle, r, ws, u, ht, hbegin⟩ | rfl | ⟨k, rfl⟩ | ⟨ws, r, rfl⟩
  · have hs := h.setWaiting r ws
    have hi : (setWaiting r ws s).op = none := by rw [setWaiting_op, hidle]
    have hu : Inv u := by
      rcases hbegin with ⟨i, hport, hu⟩ | hu
      · exact inv_beginInstr hport hs hi hu
      · exact inv_beginIllegal hs hi hu
    rcases ht with rfl | rfl
    · exact hu
    · exact hu.settle
  · exact h.settle
  · exact h.landWrite k
  · exact (h.readReq ws).respondRead r

theorem inv_stepWith {choice : Nat → Nat} {s t : State} (h : Inv s) (hstep : stepWith choice s = .next t) : Inv t := by
  rcases stepWith_performs hstep with rfl | ⟨d, a, ha, hperform⟩
  · exact h
  · exact inv_perform (h.draws d) ha hperform

/-- Settles O54: action by action. -/
theorem everyStepKeepsTheInvariant : Obligations.EveryStepKeepsTheInvariant :=
  ⟨fun _ _ => inv_stepWith, fun _ _ _ => inv_stepWith⟩

/-! No step stops (60_exceptions.md section 1). -/

/-- From the invariant every event command answers. -/
theorem exec_event_next {i : Instr} {s : State} (hport : i.port = .event) (h : Inv s) (hi : s.op = none) :
    ∃ t, exec i s = .next t := by
  cases i with
  | init => exact ⟨_, initBindsAndInitialises s hi⟩
  | byte b =>
    cases hb : s.bound with
    | true =>
      obtain ⟨d, -, hexec⟩ := exec_byte_of_ready b ⟨h, hb, hi⟩
      exact ⟨_, hexec⟩
    | false =>
      obtain ⟨hunbound, -⟩ := beforeInitByteAndTickAreUnbound s h hb hi
      exact ⟨_, hunbound b⟩
  | tick =>
    cases hb : s.bound with
    | true => exact ⟨_, exec_tick_of_bound hi hb⟩
    | false =>
      obtain ⟨-, hunbound⟩ := beforeInitByteAndTickAreUnbound s h hb hi
      exact ⟨_, hunbound⟩
  | read idx => cases hport

theorem acceptEvent_next {s : State} (w : CommandWord) (h : Inv s) (hi : s.op = none) :
    ∃ t, acceptEvent w s = .next t := by
  unfold acceptEvent
  split
  case h_1 i hd =>
    obtain ⟨-, hport⟩ := decodeOn_eq_ok.mp hd
    obtain ⟨t, hexec⟩ := exec_event_next hport h hi
    rw [exec_eq_wholeOp hport] at hexec
    rcases wholeOp_eq_next.mp hexec with ⟨hbusy, _⟩ | ⟨_, u, hu, _⟩
    · exact absurd hi hbusy
    · obtain ⟨v, hrun, -⟩ := runOp_of_ok hi hu
      exact ⟨v, (runEvent_eq_runOp hport s).trans hrun⟩
  case h_2 =>
    obtain ⟨v, hrun, -⟩ := runOp_of_ok (f := beginIllegal) hi rfl
    exact ⟨v, hrun⟩

theorem perform_next {a : Action} {s : State} (h : Inv s) (ha : a ∈ enabled s) : ∃ t, perform a s = .next t := by
  cases hop : s.op with
  | none =>
    rcases (mem_enabled_idle hop).mp ha with ⟨r, hne, rfl⟩ | ⟨_, rfl⟩
    · obtain ⟨w, ws, hwait⟩ := List.exists_cons_of_ne_nil hne
      simp only [perform, hwait]
      exact acceptEvent_next w (h.setWaiting r ws) (by simpa using hop)
    · exact perform_serveRead_next s
  | some p => exact perform_busy_next hop ha

theorem stepWith_next (choice : Nat → Nat) {s : State} (h : Inv s) : ∃ t, stepWith choice s = .next t := by
  rcases stepWith_cases choice s with ⟨_, he⟩ | ⟨a, ha, he | he⟩
  · exact ⟨s, he⟩
  · exact he ▸ perform_next h ha
  · exact he ▸ perform_next (h.draws (s.draws + 1)) ha

theorem run_succ {n : Nat} {s t : State} (hstep : step s = .next t) :
    Sys2Proof.core.run (n + 1) s = Sys2Proof.core.run n t := by
  have hcore : Sys2Proof.core.step s = .next t := hstep
  simp only [Host.Core.run, hcore]

/-- Settles O56: every step from the invariant answers, and leads to the invariant again. -/
theorem noStepEverStops : Obligations.NoStepEverStops := by
  refine ⟨fun choice s h => stepWith_next choice h, fun s h n => ?_⟩
  induction n generalizing s with
  | zero => exact ⟨s, rfl⟩
  | succ n ih =>
    obtain ⟨t, hstep⟩ := stepWith_next (Config.choice s.origin) h
    obtain ⟨u, hrun⟩ := ih t (inv_stepWith h hstep)
    exact ⟨u, (run_succ hstep).trans hrun⟩

end Sys2Proof.Machine

/-! What no step changes (10_state.md section 2), and several blocks side by side (60_exceptions.md section 6). -/

namespace Sys2Proof.Machine

/-! The parameters, the origin and the binding. -/

/-- `t` is a later state of the block `s`: same parameters, same origin, bound if `s` is. -/
structure SameBlock (s t : State) : Prop where
  params : t.params = s.params
  origin : t.origin = s.origin
  bound : s.bound = true → t.bound = true

theorem SameBlock.refl (s : State) : SameBlock s s := ⟨rfl, rfl, id⟩

theorem SameBlock.trans {s t u : State} (h : SameBlock s t) (k : SameBlock t u) : SameBlock s u :=
  ⟨k.params.trans h.params, k.origin.trans h.origin, fun hb => k.bound (h.bound hb)⟩

theorem sameBlock_settle (s : State) : SameBlock s (settle s) := ⟨by simp, by simp, by simp⟩

theorem sameBlock_setWaiting (r : Requester) (ws : List CommandWord) (s : State) : SameBlock s (setWaiting r ws s) :=
  ⟨by simp, by simp, by simp⟩

theorem sameBlock_landWrite (k : Nat) (s : State) : SameBlock s (landWrite k s) := by
  rcases landWrite_cases k s with heq | ⟨p, w, _, _, heq⟩
  · rw [heq]
    exact .refl s
  · rw [heq]
    exact ⟨rfl, rfl, id⟩

theorem sameBlock_beginInstr {i : Instr} {s u : State} (hport : i.port = .event) (hu : beginInstr i s = .ok u) :
    SameBlock s u := by
  obtain ⟨ws, r, v, rfl, hv⟩ := beginInstr_eq_ok hport hu
  refine ⟨(congrArg State.params hv.frame :), (congrArg State.origin hv.frame :), fun hb => ?_⟩
  rw [beginOp_bound, hv.bound, hb, ite_self]

theorem sameBlock_perform {a : Action} {s t : State} (ha : a ∈ enabled s) (h : perform a s = .next t) :
    SameBlock s t := by
  rcases perform_cases ha h with ⟨_, r, ws, u, ht, hbegin⟩ | rfl | ⟨k, rfl⟩ | ⟨ws, r, rfl⟩
  · have hu : SameBlock s u := (sameBlock_setWaiting r ws s).trans <| by
      rcases hbegin with ⟨i, hport, hu⟩ | hu
      · exact sameBlock_beginInstr hport hu
      · cases hu
        exact ⟨rfl, rfl, id⟩
    rcases ht with rfl | rfl
    · exact hu
    · exact hu.trans (sameBlock_settle u)
  · exact sameBlock_settle s
  · exact sameBlock_landWrite k s
  · exact ⟨rfl, rfl, id⟩

theorem sameBlock_stepWith {choice : Nat → Nat} {s t : State} (h : stepWith choice s = .next t) : SameBlock s t := by
  rcases stepWith_performs h with rfl | ⟨d, a, ha, hperform⟩
  · exact .refl t
  · obtain ⟨hparams, horigin, hbound⟩ := sameBlock_perform (s := { s with draws := d }) ha hperform
    exact ⟨hparams, horigin, hbound⟩

/-- Settles O57: action by action. -/
theorem parametersAndBindingPersist : Obligations.ParametersAndBindingPersist := by
  intro choice s t h
  obtain ⟨hparams, horigin, hbound⟩ := sameBlock_stepWith h
  exact ⟨hparams, horigin, hbound⟩

/-! Several blocks (60_exceptions.md R137, R138; log 21). -/

/-- A block replaced by one of its own origin leaves the origins. -/
theorem ownOrigins_set {blocks : List State} {k : Nat} {s t : State} (hs : blocks[k]? = some s)
    (horigin : t.origin = s.origin) : ownOrigins (blocks.set k t) ↔ ownOrigins blocks := by
  obtain ⟨hk, rfl⟩ := List.getElem?_eq_some_iff.mp hs
  have hmap : (blocks.set k t).map State.origin = blocks.map State.origin := by
    rw [List.map_set, horigin, ← List.getElem_map State.origin (h := by simpa using hk), List.set_getElem_self]
  rw [ownOrigins, ownOrigins, hmap]

theorem origin_ne_of_ownOrigins {blocks : List State} {k j : Nat} {s t : State} (hown : ownOrigins blocks)
    (hne : k ≠ j) (hs : blocks[k]? = some s) (ht : blocks[j]? = some t) : s.origin ≠ t.origin := by
  intro heq
  obtain ⟨hk, rfl⟩ := List.getElem?_eq_some_iff.mp hs
  obtain ⟨hj, rfl⟩ := List.getElem?_eq_some_iff.mp ht
  refine hne ((List.Nodup.getElem_inj_iff hown (hi := by simpa using hk) (hj := by simpa using hj)).mp ?_)
  rw [List.getElem_map, List.getElem_map, heq]

/-- Two blocks of different origins take any two steps of theirs under one resolution of all open choices. -/
theorem stepBlockWith_independent {c d : Nat → Nat} {k j : Nat} {blocks : List State} {s t s' t' : State}
    (hne : k ≠ j) (hown : ownOrigins blocks) (hs : blocks[k]? = some s) (ht : blocks[j]? = some t)
    (hs' : stepWith c s = .next s') (ht' : stepWith d t = .next t') :
    ∃ choice after, stepBlockWith choice k blocks = .next after ∧
      stepBlockWith choice j after = .next ((blocks.set k s').set j t') := by
  have horigin := origin_ne_of_ownOrigins hown hne hs ht
  refine ⟨Function.update (fun _ => d) s.origin c, blocks.set k s', stepBlockWith_of_some hs ?_,
    stepBlockWith_of_some (s := t) ?_ ?_⟩
  · rw [Function.update_self]
    exact hs'
  · rw [List.getElem?_set_ne hne, ht]
  · rw [Function.update_of_ne horigin.symm]
    exact ht'

theorem map_origin_powerOnBlocks (first : Nat) (ps : List Params) :
    (powerOnBlocks first ps).map State.origin = List.range' first ps.length := by
  induction ps generalizing first with
  | nil => rfl
  | cons p ps ih => rw [powerOnBlocks, List.map_cons, ih, powerOn_origin, List.length_cons, List.range'_succ]

theorem getElem?_powerOnBlocks (first : Nat) (ps : List Params) (k : Nat) :
    (powerOnBlocks first ps)[k]? = ps[k]?.map fun p => State.powerOn p (first + k) := by
  induction ps generalizing first k with
  | nil => rfl
  | cons p ps ih =>
    cases k with
    | zero => rfl
    | succ k =>
      rw [powerOnBlocks, List.getElem?_cons_succ, List.getElem?_cons_succ, ih, Nat.add_right_comm, Nat.add_assoc]

/-- Settles O60: a step replaces one block of the list by that block's own step, which keeps its origin. -/
theorem blocksDoNotAffectEachOther : Obligations.BlocksDoNotAffectEachOther := by
  refine ⟨fun choice k j blocks after h => ?frame, fun k j blocks after hne h => ?ownStep,
    fun _ _ _ _ _ _ _ _ _ hne hown hs ht => stepBlockWith_independent hne hown hs ht,
    fun first ps => ⟨?origins, getElem?_powerOnBlocks first ps⟩⟩
  case frame =>
    rcases stepBlockWith_cases h with ⟨_, rfl⟩ | ⟨s, t, hs, ht, rfl⟩
    · exact ⟨fun _ => rfl, id⟩
    · exact ⟨fun hne => List.getElem?_set_ne hne, (ownOrigins_set hs (sameBlock_stepWith ht).origin).mpr⟩
  case ownStep =>
    rcases stepBlockWith_cases h with ⟨hnone, rfl⟩ | ⟨s, t, hs, ht, rfl⟩
    · exact ⟨rfl, fun s hs => by simp [hnone] at hs⟩
    · refine ⟨List.getElem?_set_ne hne, fun s' hs' => ?_⟩
      cases hs.symm.trans hs'
      obtain ⟨hk, -⟩ := List.getElem?_eq_some_iff.mp hs
      exact ⟨t, ht, List.getElem?_set_self hk⟩
  case origins =>
    rw [ownOrigins, map_origin_powerOnBlocks]
    exact List.nodup_range'

end Sys2Proof.Machine

/-! Buffer bytes outside the current frame, and its address byte, are never observed (10_state.md section 3,
41_decoder.md section 2): operations that do not look at the buffer commute with replacing it, and BYTE looks at none
but bytes of the frame from its length byte on. -/

namespace Sys2Proof.Machine

/-! Operations that do not look at the buffer. -/

/-- The state with another frame buffer and origin. -/
def overlay (m : Memory) (o : Nat) (s : State) : State := { s with buf := m, origin := o }

theorem alikeButUnread_overlay {s t : State} (h : alikeButUnread s t) : t = overlay t.buf t.origin s := h.1

theorem alikeButUnread.byteAt_eq {s t : State} (h : alikeButUnread s t) {i : Nat} (hone : 1 ≤ i) (hpos : i < s.pos) :
    byteAt t i = byteAt s i := h.2 i hone hpos

/-- An operation that neither looks at the buffer and the origin nor changes them, nor lengthens the current frame. -/
structure Unobservant (f : State → State) : Prop where
  overlay : ∀ m o s, f (overlay m o s) = overlay m o (f s)
  buf : ∀ s, (f s).buf = s.buf
  origin : ∀ s, (f s).origin = s.origin
  pos_le : ∀ s, (f s).pos ≤ s.pos

theorem alikeButUnread.map {f : State → State} (hf : Unobservant f) {s t : State} (h : alikeButUnread s t) :
    alikeButUnread (f s) (f t) := by
  refine ⟨?_, fun i hone hpos => ?_⟩
  · rw [hf.buf t, hf.origin t]
    calc f t = f (overlay t.buf t.origin s) := congrArg f (alikeButUnread_overlay h)
      _ = overlay t.buf t.origin (f s) := hf.overlay _ _ s
  · rw [byteAt_congr (hf.buf t) (hf.origin t), byteAt_congr (hf.buf s) (hf.origin s)]
    exact h.byteAt_eq hone (Nat.lt_of_lt_of_le hpos (hf.pos_le s))

theorem unobservant_settle : Unobservant settle where
  overlay m o s := by cases hop : s.op <;> simp [settle, overlay, hop]
  buf := settle_buf
  origin := settle_origin
  pos_le s := Nat.le_of_eq (settle_pos s)

theorem unobservant_landWrite (k : Nat) : Unobservant (landWrite k) where
  overlay m o s := by
    cases hop : s.op with
    | none => simp [landWrite, overlay, hop]
    | some p => cases hw : p.writes[k]? <;> simp [landWrite, overlay, hop, hw]
  buf s := by rcases landWrite_cases k s with h | ⟨_, _, _, _, h⟩ <;> rw [h]
  origin s := by rcases landWrite_cases k s with h | ⟨_, _, _, _, h⟩ <;> rw [h]
  pos_le s := by rcases landWrite_cases k s with h | ⟨_, _, _, _, h⟩ <;> rw [h]

theorem unobservant_setWaiting (r : Requester) (ws : List CommandWord) : Unobservant (setWaiting r ws) where
  overlay m o s := by cases r <;> rfl
  buf := setWaiting_buf r ws
  origin := setWaiting_origin r ws
  pos_le s := Nat.le_of_eq (setWaiting_pos r ws s)

theorem unobservant_beginOp (ws : List (Fin 16 × Slot)) (r : EventResponse) : Unobservant (beginOp ws r) :=
  ⟨fun _ _ _ => rfl, fun _ => rfl, fun _ => rfl, fun _ => Nat.le_refl _⟩

theorem unobservant_asmReset : Unobservant asmReset :=
  ⟨fun _ _ _ => rfl, fun _ => rfl, fun _ => rfl, fun _ => Nat.zero_le _⟩

theorem unobservant_boundTick : Unobservant boundTick where
  overlay m o s := by simp only [boundTick, resyncCheck_eq]; rfl
  buf s := by simp only [boundTick, resyncCheck_eq]; rfl
  origin s := by simp only [boundTick, resyncCheck_eq]; rfl
  pos_le s := by
    simp only [boundTick, resyncCheck_eq, failsafeCheck, beginOp_pos]
    split
    · exact Nat.zero_le _
    · exact Nat.le_refl _

theorem unobservant_exp (n : Nat) : Unobservant fun s => { s with exp := n } :=
  ⟨fun _ _ _ => rfl, fun _ => rfl, fun _ => rfl, fun _ => Nat.le_refl _⟩

theorem unobservant_slvf (n : Nat) : Unobservant fun s => { s with slvf := n } :=
  ⟨fun _ _ _ => rfl, fun _ => rfl, fun _ => rfl, fun _ => Nat.le_refl _⟩

theorem unobservant_readReq (ws : List CommandWord) : Unobservant fun s => { s with readReq := ws } :=
  ⟨fun _ _ _ => rfl, fun _ => rfl, fun _ => rfl, fun _ => Nat.le_refl _⟩

theorem unobservant_draws (d : Nat) : Unobservant fun s => { s with draws := d } :=
  ⟨fun _ _ _ => rfl, fun _ => rfl, fun _ => rfl, fun _ => Nat.le_refl _⟩

theorem unobservant_respondRead (f : State → ReadResult) (hf : ∀ m o s, f (overlay m o s) = f s) :
    Unobservant fun s => respondRead (f s) s where
  overlay m o s := by rw [hf]; rfl
  buf _ := rfl
  origin _ := rfl
  pos_le _ := Nat.le_refl _

/-! What two states alike have in common. -/

theorem alikeButUnread.pos {s t : State} (h : alikeButUnread s t) : t.pos = s.pos :=
  (congrArg State.pos (alikeButUnread_overlay h) :)

theorem alikeButUnread.exp {s t : State} (h : alikeButUnread s t) : t.exp = s.exp :=
  (congrArg State.exp (alikeButUnread_overlay h) :)

theorem alikeButUnread.params {s t : State} (h : alikeButUnread s t) : t.params = s.params :=
  (congrArg State.params (alikeButUnread_overlay h) :)

theorem alikeButUnread.bound {s t : State} (h : alikeButUnread s t) : t.bound = s.bound :=
  (congrArg State.bound (alikeButUnread_overlay h) :)

theorem alikeButUnread.op {s t : State} (h : alikeButUnread s t) : t.op = s.op :=
  (congrArg State.op (alikeButUnread_overlay h) :)

theorem alikeButUnread.readReq {s t : State} (h : alikeButUnread s t) : t.readReq = s.readReq :=
  (congrArg State.readReq (alikeButUnread_overlay h) :)

theorem alikeButUnread.draws {s t : State} (h : alikeButUnread s t) : t.draws = s.draws :=
  (congrArg State.draws (alikeButUnread_overlay h) :)

theorem alikeButUnread.waiting {s t : State} (h : alikeButUnread s t) (r : Requester) : waiting r t = waiting r s := by
  rw [alikeButUnread_overlay h]
  cases r <;> rfl

theorem alikeButUnread.enabled {s t : State} (h : alikeButUnread s t) : enabled t = enabled s := by
  simp only [Machine.enabled, eventActions, readActions, h.op, h.readReq, h.waiting]

theorem alikeButUnread.headroom {s t : State} (h : alikeButUnread s t) : headroom t = headroom s := by
  rw [Machine.headroom, Machine.headroom, h.params, h.pos]

/-! The Decoder and the length capture look at bytes of the frame from its length byte on (41_decoder.md R94). -/

theorem alikeButUnread.map_byteAt {s t : State} (h : alikeButUnread s t) {a n : Nat} (ha : 1 ≤ a) (hn : a + n ≤ s.pos) :
    (List.range' a n).map (byteAt t) = (List.range' a n).map (byteAt s) := by
  refine List.map_congr_left fun i hi => ?_
  obtain ⟨hle, hlt⟩ := List.mem_range'_1.mp hi
  exact h.byteAt_eq (by omega) (by omega)

/-- What the Decoder finds in two states alike, their frame being as long as its length byte says. -/
theorem decodeFrame_alike {s t : State} {d : Decoded} (h : alikeButUnread s t)
    (hlen : s.pos = 2 + (byteAt s 1).toNat) (htwo : 2 ≤ s.pos) (hfits : s.pos ≤ s.params.bufCap)
    (hd : decodeFrame s = .ok d) :
    ∃ u, decodeFrame t = .ok ⟨u, d.evt, d.writes⟩ ∧ alikeButUnread d.state u := by
  have hl : byteAt t 1 = byteAt s 1 := h.byteAt_eq (Nat.le_refl 1) htwo
  have hcap : t.params.bufCap = s.params.bufCap := congrArg Params.bufCap h.params
  rcases decodeFrame_cases hd with ⟨hshort, rfl⟩ | ⟨hlong, _, hlongFrame⟩
  · exact ⟨t, decodeFrame_short (by omega) (hl ▸ hshort), h⟩
  · have hcrcByte := h.byteAt_eq (i := (byteAt s 1).toNat + 1) (by omega) (by omega)
    have hspan := h.map_byteAt (a := 2) (n := (byteAt s 1).toNat - 1) (by omega) (by omega)
    have htype := h.byteAt_eq (i := 2) (by omega) (by omega)
    have hdt := decodeFrame_long (s := t) (hl ▸ hlong) (by rw [hl]; omega)
    have hpoly : t.params.crcPoly = s.params.crcPoly := congrArg Params.crcPoly h.params
    rw [hl, hcrcByte, hspan, htype, hpoly] at hdt
    rcases hlongFrame with ⟨hcrc, rfl⟩ | ⟨hcrc, ⟨hch, h24, rfl⟩ | ⟨hother, rfl⟩⟩
    · exact ⟨t, by rw [hdt, if_neg hcrc], h⟩
    · rw [if_pos hcrc, if_pos ⟨hch, h24⟩, h.map_byteAt (a := 3) (by omega) (by omega)] at hdt
      exact ⟨_, hdt, h.map (unobservant_slvf 0)⟩
    · rw [if_pos hcrc, if_neg hother] at hdt
      exact ⟨_, hdt, h.map (unobservant_slvf 0)⟩

theorem complete_alike {s t : State} {e : Evt} {d : Decoded} (h : alikeButUnread s t)
    (hframe : e = .none → 2 ≤ s.pos → s.exp = 2 + (byteAt s 1).toNat ∧ s.exp ≤ s.params.bufCap)
    (hd : complete s e = .ok d) :
    ∃ u, complete t e = .ok ⟨u, d.evt, d.writes⟩ ∧ alikeButUnread d.state u := by
  rcases complete_cases hd with ⟨hopen, rfl⟩ | ⟨rfl, htwo, hdone, d', hd', rfl⟩
  · exact ⟨t, complete_of_unfinished (by rwa [h.pos, h.exp]), h⟩
  · obtain ⟨hexp, hcap⟩ := hframe rfl htwo
    obtain ⟨u, hu, halike⟩ := decodeFrame_alike h (hdone.trans hexp) htwo (hdone ▸ hcap) hd'
    refine ⟨asmReset u, ?_, halike.map unobservant_asmReset⟩
    rw [complete_of_decodeFrame (by rwa [h.pos]) (by rwa [h.pos, h.exp]) hu]

theorem captureLength_alike {s t u : State} {e : Evt} (h : alikeButUnread s t) (hc : 1 < s.params.bufCap)
    (hu : captureLength s = .ok (u, e)) : ∃ v, captureLength t = .ok (v, e) ∧ alikeButUnread u v := by
  by_cases htwo : s.pos = 2
  · have hl : byteAt t 1 = byteAt s 1 := h.byteAt_eq (Nat.le_refl 1) (by omega)
    have hcap : t.params.bufCap = s.params.bufCap := congrArg Params.bufCap h.params
    rw [captureLength_of_two htwo hc] at hu
    rw [captureLength_of_two (h.pos.trans htwo) (hcap ▸ hc), hl, hcap]
    split at hu
    case isTrue hover =>
      cases hu
      exact ⟨_, if_pos hover, h.map unobservant_asmReset⟩
    case isFalse hfits =>
      cases hu
      exact ⟨_, if_neg hfits, h.map (unobservant_exp _)⟩
  · rw [captureLength_of_ne htwo] at hu
    cases hu
    exact ⟨t, captureLength_of_ne (h.pos ▸ htwo), h⟩

/-- The byte appended is alike, and so is what was before it. -/
theorem appended_alike {s t : State} (b : Byte) (h : alikeButUnread s t) :
    alikeButUnread (appended b s) (appended b t) := by
  refine ⟨?_, fun i hone hpos => ?_⟩
  · rw [alikeButUnread_overlay h]
    rfl
  · by_cases hi : i = s.pos
    · rw [hi, byteAt_appended_self, ← h.pos, byteAt_appended_self]
    · rw [byteAt_appended_other b hi, byteAt_appended_other b (h.pos ▸ hi)]
      have hlt : i < s.pos + 1 := hpos
      exact h.byteAt_eq hone (by omega)

/-- After the length capture of a BYTE, `exp` is what the length byte of the frame says. -/
theorem exp_of_capturedExp {b : Byte} {s : State} {e : Nat} (h : Inv s) (hexp : CapturedExp b s e)
    (htwo : 2 ≤ s.pos + 1) :
    e = 2 + (byteAt (appended b s) 1).toNat ∧ e ≤ s.params.bufCap := by
  rcases hexp with ⟨hne, rfl⟩ | ⟨hone, hfits, rfl⟩
  · rw [byteAt_appended_other b hne.symm]
    exact ⟨h.exp_eq_of_two_le (by omega), h.exp_le_cap⟩
  · rw [← hone, byteAt_appended_self]
    exact ⟨rfl, hfits⟩

/-! Outcomes of operations on two states alike. -/

/-- If the first start answers, so does the second, with a state alike. -/
def AlikeStarts (x y : Except Fault State) : Prop := ∀ u, x = .ok u → ∃ v, y = .ok v ∧ alikeButUnread u v

/-- If the first step answers, so does the second, with a state alike. -/
def AlikeOutcomes (x y : Host.Outcome State Fault Refusal) : Prop :=
  ∀ u, x = .next u → ∃ v, y = .next v ∧ alikeButUnread u v

theorem alikeStarts_ok {u v : State} (h : alikeButUnread u v) : AlikeStarts (.ok u) (.ok v) := by
  rintro _ ⟨⟩
  exact ⟨v, rfl, h⟩

theorem alikeOutcomes_next {u v : State} (h : alikeButUnread u v) : AlikeOutcomes (.next u) (.next v) := by
  rintro _ ⟨⟩
  exact ⟨v, rfl, h⟩

/-- BYTE: append, length capture and completion, each on states alike. -/
theorem boundByte_alike (b : Byte) {s t : State} (hinv : Inv s) (h : alikeButUnread s t) :
    AlikeStarts (boundByte b s) (boundByte b t) := by
  intro u hu
  have happ : append b t = .ok (appended b t) := append_of_lt (by rw [h.pos, h.params]; exact hinv.pos_lt_cap)
  unfold boundByte at hu
  rw [append_of_lt hinv.pos_lt_cap] at hu
  dsimp only at hu
  split at hu
  case h_1 => cases hu
  case h_2 s2 evt hcap =>
    have hc : 1 < s.params.bufCap := Nat.lt_of_lt_of_le (by decide) hinv.bufCap_ge
    obtain ⟨t2, hcapt, h2⟩ := captureLength_alike (appended_alike b h) hc hcap
    split at hu
    case h_1 => cases hu
    case h_2 d hd =>
      cases hu
      have hframe : evt = .none → 2 ≤ s2.pos → s2.exp = 2 + (byteAt s2 1).toNat ∧ s2.exp ≤ s2.params.bufCap := by
        intro hnone htwo
        rcases captureLength_appended_cases hcap with ⟨_, rfl⟩ | ⟨hs2, _, hexp⟩
        · cases hnone
        · rw [hs2] at htwo ⊢
          exact exp_of_capturedExp hinv hexp htwo
      obtain ⟨v, hdt, hv⟩ := complete_alike h2 hframe hd
      have hbt : boundByte b t = .ok (beginOp d.writes
          { status := .ok, headroom := headroom v, evt := d.evt, consumed := true } v) := by
        simp only [boundByte, happ, hcapt, hdt]
      rw [hv.headroom] at hbt
      exact ⟨_, hbt, hv.map (unobservant_beginOp _ _)⟩

theorem beginInstr_alike (i : Instr) {s t : State} (hinv : Inv s) (h : alikeButUnread s t) :
    AlikeStarts (beginInstr i s) (beginInstr i t) := by
  have hunbound : AlikeStarts (.ok (beginOp [] { status := .unbound, headroom := headroom s } s))
      (.ok (beginOp [] { status := .unbound, headroom := headroom t } t)) :=
    alikeStarts_ok (h.headroom ▸ h.map (unobservant_beginOp _ _))
  cases i with
  | init =>
    have hinit : Unobservant fun s => beginOp (everySlot .noDriver) { status := .ok, headroom := s.params.bufCap }
        { asmReset s with bound := true, slb := 0, slvf := 0 } :=
      ⟨fun _ _ _ => rfl, fun _ => rfl, fun _ => rfl, fun _ => Nat.zero_le _⟩
    exact alikeStarts_ok (h.map hinit)
  | byte b =>
    simp only [beginInstr, beginByte, h.bound]
    split
    · exact boundByte_alike b hinv h
    · exact hunbound
  | tick =>
    simp only [beginInstr, beginTick, h.bound]
    split
    · exact alikeStarts_ok (h.map unobservant_boundTick)
    · exact hunbound
  | read idx => exact alikeStarts_ok h

theorem beginIllegal_alike {s t : State} (h : alikeButUnread s t) : AlikeStarts (beginIllegal s) (beginIllegal t) := by
  refine alikeStarts_ok ?_
  rw [h.headroom]
  exact h.map (unobservant_beginOp _ _)

/-- An event operation on an idle port, whole or opened. -/
theorem runOp_alike {f : State → Except Fault State} {s t : State} (hi : s.op = none) (h : alikeButUnread s t)
    (hf : AlikeStarts (f s) (f t)) : AlikeOutcomes (runOp f s) (runOp f t) := by
  intro u hu
  have hit : t.op = none := h.op.trans hi
  unfold runOp at hu ⊢
  rw [h.readReq]
  split at hu
  case isTrue hnoRead =>
    rw [if_pos hnoRead]
    rcases wholeOp_eq_next.mp hu with ⟨hbusy, _⟩ | ⟨_, v, hv, rfl⟩
    · exact absurd hi hbusy
    · obtain ⟨w, hw, halike⟩ := hf v hv
      exact ⟨settle w, wholeOp_of_ok hit hw, halike.map unobservant_settle⟩
  case isFalse hread =>
    rw [if_neg hread]
    rcases openOp_eq_next.mp hu with ⟨hbusy, _⟩ | ⟨_, hv⟩
    · exact absurd hi hbusy
    · obtain ⟨w, hw, halike⟩ := hf u hv
      exact ⟨w, openOp_eq_next.mpr (.inr ⟨hit, hw⟩), halike⟩

theorem acceptEvent_alike (w : CommandWord) {s t : State} (hi : s.op = none) (hinv : Inv s) (h : alikeButUnread s t) :
    AlikeOutcomes (acceptEvent w s) (acceptEvent w t) := by
  cases hd : decodeOn .event w with
  | ok i =>
    obtain ⟨-, hport⟩ := decodeOn_eq_ok.mp hd
    simp only [acceptEvent, hd, runEvent_eq_runOp hport]
    exact runOp_alike hi h (beginInstr_alike i hinv h)
  | error e =>
    simp only [acceptEvent, hd]
    exact runOp_alike hi h (beginIllegal_alike h)

theorem acceptRead_alike (w : CommandWord) {s t : State} (h : alikeButUnread s t) :
    AlikeOutcomes (acceptRead w s) (acceptRead w t) := by
  cases hd : decodeOn .read w with
  | ok i =>
    obtain ⟨-, hport⟩ := decodeOn_eq_ok.mp hd
    simp only [acceptRead, hd]
    cases i with
    | read idx => exact alikeOutcomes_next (h.map (unobservant_respondRead (readSlot idx) fun _ _ _ => rfl))
    | init => cases hport
    | byte b => cases hport
    | tick => cases hport
  | error e =>
    simp only [acceptRead, hd]
    exact alikeOutcomes_next (h.map (unobservant_respondRead (fun _ => .illegal) fun _ _ _ => rfl))

theorem serveRead_alike {s t : State} (h : alikeButUnread s t) :
    AlikeOutcomes (perform .serveRead s) (perform .serveRead t) := by
  cases hreq : s.readReq with
  | nil =>
    simp only [perform, h.readReq, hreq]
    exact alikeOutcomes_next h
  | cons w ws =>
    simp only [perform, h.readReq, hreq]
    exact acceptRead_alike w (h.map (unobservant_readReq ws))

theorem perform_alike {a : Action} {s t : State} (hinv : Inv s) (ha : a ∈ enabled s) (h : alikeButUnread s t) :
    AlikeOutcomes (perform a s) (perform a t) := by
  cases hop : s.op with
  | none =>
    rcases (mem_enabled_idle hop).mp ha with ⟨r, hne, rfl⟩ | ⟨_, rfl⟩
    · obtain ⟨w, ws, hwait⟩ := List.exists_cons_of_ne_nil hne
      simp only [perform, h.waiting, hwait]
      exact acceptEvent_alike w (by simpa using hop) (hinv.setWaiting r ws) (h.map (unobservant_setWaiting r ws))
    · exact serveRead_alike h
  | some p =>
    rcases (mem_enabled_busy hop).mp ha with ⟨_, rfl⟩ | ⟨k, _, rfl⟩ | ⟨_, rfl⟩
    · exact alikeOutcomes_next (h.map unobservant_settle)
    · exact alikeOutcomes_next (h.map (unobservant_landWrite k))
    · exact serveRead_alike h

theorem stepWith_alike (choice : Nat → Nat) {s t : State} (hinv : Inv s) (h : alikeButUnread s t) :
    AlikeOutcomes (stepWith choice s) (stepWith choice t) := by
  cases hs : enabled s with
  | nil =>
    simp only [stepWith, h.enabled, hs]
    exact alikeOutcomes_next h
  | cons a l =>
    cases l with
    | nil =>
      simp only [stepWith, h.enabled, hs]
      exact perform_alike hinv (by simp [hs]) h
    | cons b rest =>
      have hk : choice s.draws % (rest.length + 2) < (a :: b :: rest).length := Nat.mod_lt _ (Nat.succ_pos _)
      have hmem : (a :: b :: rest)[choice s.draws % (rest.length + 2)] ∈ enabled s := by
        rw [hs]
        exact List.getElem_mem hk
      simp only [stepWith, h.enabled, hs, h.draws, List.getD_eq_getElem _ _ hk]
      exact perform_alike (hinv.draws (s.draws + 1)) hmem (h.map (unobservant_draws (s.draws + 1)))

/-- Settles O58: the same actions are enabled, the same one is taken, and it leads to states alike. -/
theorem unreadBytesAreNeverObserved : Obligations.UnreadBytesAreNeverObserved :=
  fun choice _ _ s' hinv _ h => stepWith_alike choice hinv h s'

end Sys2Proof.Machine
